-- ==== Sys2Proof/Word.lean ====
section
/-! DEFINITION. The words of key4 CORE: command word, sample word, the number word `Num32`, the mode
enumeration. Spec: 00_scope.md R11, R13, R14; 10_state.md R21; 20_memory.md R52, R53. -/

namespace Sys2Proof

/-- One command word of the `CMD` port (20_memory.md R52, 30_encoding.md R71). -/
abbrev CmdWord := BitVec 32

/-- One sample word of the `SMP` port, an `i32` (20_memory.md R53, 44_drive_output.md R176). -/
abbrev SmpWord := BitVec 32

/-- A `num`: the bit pattern of an IEEE 754 binary32 datum (00_scope.md R11, R14). The pattern and not
the real value, so that the two zeros and the last bit stay visible. Its arithmetic is
`Sys2Proof/Machine/Float.lean`. -/
abbrev Num32 := BitVec 32

/-- `mode_t`, the six synthesis modes in the order of 10_state.md R21. The codes 6 and 7 are never held
(R21), so the type has no value for them. -/
inductive Mode where
  | poly
  | unison
  | octave
  | fifth
  | unisonRing
  | polyRing
deriving DecidableEq, Repr

end Sys2Proof
end

