-- ==== Sys2Proof/Syntax.lean ====
section
/-! DEFINITION. The operations of key4 CORE, one constructor per row of spec/opcode_table.json
(30_encoding.md R72), each with the fields its format carries (R74 to R77). -/

namespace Sys2Proof

/-- One host operation with its operands. The field widths are those of the formats, so a field holds
exactly the values the encoding admits and every one of them is legal (30_encoding.md R74 to R77). -/
inductive Instr where
  /-- `INIT plat, api`, format Z (R74). -/
  | init (plat : BitVec 12) (api : BitVec 16)
  /-- `SYNTH note, mod, frames`, format S (R75). -/
  | synth (note : BitVec 8) (mod : BitVec 8) (frames : BitVec 12)
  /-- `NOTEON np`, format N (R76). -/
  | noteOn (np : BitVec 28)
  /-- `NOTEOFF np`, format N (R76). -/
  | noteOff (np : BitVec 28)
  /-- `SETP MODE, value`, format P with `pid` 0 (R77, R78). -/
  | setpMode (value : BitVec 16)
  /-- `SETP DRIVE, value`, `pid` 1. -/
  | setpDrive (value : BitVec 16)
  /-- `SETP DETUNE, value`, `pid` 2. -/
  | setpDetune (value : BitVec 16)
  /-- `SETP AUX, value`, `pid` 3. -/
  | setpAux (value : BitVec 16)
deriving DecidableEq, Repr

end Sys2Proof
end

