-- ==== Sys2Proof/WellFormed.lean ====
section
/-! DEFINITION. What is well formed. An `Instr` always is: its field types are the formats' widths and
every value of every field is legal (30_encoding.md R74 to R77). An assembler line (R84, R85) carries
plain numbers, and "an operand out of range is an assembly error, not a truncation": `Asm.wellFormed`
is that check. -/

namespace Sys2Proof

/-- One line of the assembler of 30_encoding.md R84 and R85, operands as plain numbers. The forms with
an omitted operand are the same line with 0. -/
inductive Asm where
  /-- `INIT plat, api`. -/
  | init (plat api : Nat)
  /-- `SYNTH note, mod, frames`. -/
  | synth (note mod frames : Nat)
  /-- `NOTEON np`. -/
  | noteOn (np : Nat)
  /-- `NOTEOFF np`. -/
  | noteOff (np : Nat)
  /-- `SETP MODE, v` with a number. -/
  | setpMode (v : Nat)
  /-- `SETP MODE, name`; the pseudo-instruction `SETMODE name` is the same line (R85). -/
  | setpModeName (m : Mode)
  /-- `SETP DRIVE, v`; also `SETDRIVE v`. -/
  | setpDrive (v : Nat)
  /-- `SETP DETUNE, v`; also `SETDETUNE v`. -/
  | setpDetune (v : Nat)
  /-- `SETP AUX, v`. -/
  | setpAux (v : Nat)
  /-- `.word w`: any 32-bit value, reserved words included. -/
  | word (w : Nat)
  /-- `SYNTHP pitch, frames` (R85). -/
  | synthp (pitch frames : Nat)
  /-- `NOP` (R85). -/
  | nop
deriving DecidableEq, Repr

/-- The operand ranges of 30_encoding.md R84 and R85. -/
def Asm.wellFormed : Asm → Bool
  | .init plat api => decide (plat ≤ 4095) && decide (api ≤ 65535)
  | .synth note mod frames => decide (note ≤ 255) && decide (mod ≤ 255) && decide (frames ≤ 4095)
  | .noteOn np => decide (np ≤ 0x0FFFFFFF)
  | .noteOff np => decide (np ≤ 0x0FFFFFFF)
  | .setpMode v => decide (v ≤ 65535)
  | .setpModeName _ => true
  | .setpDrive v => decide (v ≤ 65535)
  | .setpDetune v => decide (v ≤ 65535)
  | .setpAux v => decide (v ≤ 65535)
  | .word w => decide (w ≤ 0xFFFFFFFF)
  | .synthp pitch frames => decide (pitch ≤ 65535) && decide (frames ≤ 4095)
  | .nop => true

end Sys2Proof
end

