-- ==== Sys2Proof/Decode.lean ====
section
/-! DEFINITION. The decoder, the encoder and the assembler (30_encoding.md). The decoder reads the
fields of R73 to R78; a word no row of R81 matches is `reserved`, with the field that makes it so. -/

namespace Sys2Proof

/-- Why a command word is reserved: the three cases of 30_encoding.md R82. -/
inductive Reserved where
  /-- `op` in 5 to 15. -/
  | op (op : BitVec 4)
  /-- `op` = 4 with `rsv` not 0. -/
  | rsv (rsv : BitVec 4)
  /-- `op` = 4, `rsv` = 0, `pid` in 4 to 255. -/
  | pid (pid : BitVec 8)
deriving DecidableEq, Repr

/-- What a command word is: "exactly one of the eight operations with its fields, or `reserved`"
(R83). -/
inductive Decoded where
  | operation (i : Instr)
  | reserved (why : Reserved)
deriving DecidableEq, Repr

/-! ## Fields (R73 to R77, R79) -/

/-- The major opcode `w[31:28]` (R73). -/
def opField (w : CmdWord) : BitVec 4 := w.extractLsb' 28 4
/-- `plat` of format Z, `w[27:16]` (R74). -/
def platField (w : CmdWord) : BitVec 12 := w.extractLsb' 16 12
/-- `api` of format Z, `w[15:0]` (R74). -/
def apiField (w : CmdWord) : BitVec 16 := w.extractLsb' 0 16
/-- `frames` of format S, `w[27:16]` (R75). -/
def framesField (w : CmdWord) : BitVec 12 := w.extractLsb' 16 12
/-- `note` of format S, `w[15:8]`, the upper byte of the pitch word (R75, 20_memory.md R55). -/
def noteField (w : CmdWord) : BitVec 8 := w.extractLsb' 8 8
/-- `mod` of format S, `w[7:0]`, the lower byte of the pitch word (R75, 20_memory.md R55). -/
def modField (w : CmdWord) : BitVec 8 := w.extractLsb' 0 8
/-- `np` of format N, `w[27:0]` (R76). -/
def npField (w : CmdWord) : BitVec 28 := w.extractLsb' 0 28
/-- `rsv` of format P, `w[27:24]` (R77). -/
def rsvField (w : CmdWord) : BitVec 4 := w.extractLsb' 24 4
/-- `pid` of format P, `w[23:16]` (R77). -/
def pidField (w : CmdWord) : BitVec 8 := w.extractLsb' 16 8
/-- `value` of format P, `w[15:0]` (R77). -/
def valueField (w : CmdWord) : BitVec 16 := w.extractLsb' 0 16

/-! ## The decoder (R81 to R83) -/

/-- The four `SETP` forms by `pid` (R78); a non-zero `rsv` or another `pid` is reserved (R82). -/
def decodeSetp (w : CmdWord) : Decoded :=
  if rsvField w ≠ 0#4 then .reserved (.rsv (rsvField w))
  else if pidField w = 0#8 then .operation (.setpMode (valueField w))
  else if pidField w = 1#8 then .operation (.setpDrive (valueField w))
  else if pidField w = 2#8 then .operation (.setpDetune (valueField w))
  else if pidField w = 3#8 then .operation (.setpAux (valueField w))
  else .reserved (.pid (pidField w))

/-- The decoder: total, and a function of the word alone (R83). -/
def decode (w : CmdWord) : Decoded :=
  if opField w = 0#4 then .operation (.init (platField w) (apiField w))
  else if opField w = 1#4 then .operation (.synth (noteField w) (modField w) (framesField w))
  else if opField w = 2#4 then .operation (.noteOn (npField w))
  else if opField w = 3#4 then .operation (.noteOff (npField w))
  else if opField w = 4#4 then decodeSetp w
  else .reserved (.op (opField w))

/-- The command word whose bits are `w`, an operation of `nbits` bits being given and every bit above
`nbits` being 0. A command word is one 32-bit transfer, bit 0 least significant (00_scope.md R13,
20_memory.md R56). -/
def tableWord (nbits w : Nat) : CmdWord := BitVec.ofNat 32 (w % 2 ^ nbits)

/-- What the decoder reads from a word numbered as spec/opcode_table.json numbers it. -/
def decodeTableWord (nbits w : Nat) : Option Instr :=
  match decode (tableWord nbits w) with
  | .operation i => some i
  | .reserved _ => none

/-! ## The encoder (R73 to R78, R81) -/

/-- The command word of an operation, field by field from bit 31 down. -/
def encode : Instr → CmdWord
  | .init plat api => 0#4 ++ plat ++ api
  | .synth note mod frames => 1#4 ++ frames ++ note ++ mod
  | .noteOn np => 2#4 ++ np
  | .noteOff np => 3#4 ++ np
  | .setpMode v => 4#4 ++ 0#4 ++ 0#8 ++ v
  | .setpDrive v => 4#4 ++ 0#4 ++ 1#8 ++ v
  | .setpDetune v => 4#4 ++ 0#4 ++ 2#8 ++ v
  | .setpAux v => 4#4 ++ 0#4 ++ 3#8 ++ v

/-! ## The assembler (R84, R85) -/

/-- The number of a mode, 0 to 5 in the order of 10_state.md R21. -/
def Mode.number : Mode → Nat
  | .poly => 0
  | .unison => 1
  | .octave => 2
  | .fifth => 3
  | .unisonRing => 4
  | .polyRing => 5

/-- The word a line with operands in range stands for: the encoding of R84, the expansion of R85. -/
def Asm.word32 : Asm → CmdWord
  | .init plat api => encode (.init (BitVec.ofNat 12 plat) (BitVec.ofNat 16 api))
  | .synth note mod frames =>
      encode (.synth (BitVec.ofNat 8 note) (BitVec.ofNat 8 mod) (BitVec.ofNat 12 frames))
  | .noteOn np => encode (.noteOn (BitVec.ofNat 28 np))
  | .noteOff np => encode (.noteOff (BitVec.ofNat 28 np))
  | .setpMode v => encode (.setpMode (BitVec.ofNat 16 v))
  | .setpModeName m => encode (.setpMode (BitVec.ofNat 16 m.number))
  | .setpDrive v => encode (.setpDrive (BitVec.ofNat 16 v))
  | .setpDetune v => encode (.setpDetune (BitVec.ofNat 16 v))
  | .setpAux v => encode (.setpAux (BitVec.ofNat 16 v))
  | .word w => BitVec.ofNat 32 w
  | .synthp pitch frames =>
      encode (.synth (BitVec.ofNat 8 (pitch / 256)) (BitVec.ofNat 8 (pitch % 256))
        (BitVec.ofNat 12 frames))
  | .nop => encode (.noteOff 0#28)

/-- Assembling a line: its word, or no word where an operand is out of range, which "is an assembly
error, not a truncation" (R84). -/
def Asm.assemble (a : Asm) : Option CmdWord :=
  if a.wellFormed then some a.word32 else none

end Sys2Proof
end

