-- ==== Sys2Proof/Config.lean ====
section
/-! DEFINITION. What an implementation of key4 CORE fixes and the spec leaves open: the record `Cfg` of
00_scope.md R10 and R12, one opaque constant per open value, and the numbers the source does fix (R9).
Nothing in Lean can evaluate an opaque constant, so a theorem about the machine holds for every value
of it. -/

namespace Sys2Proof

/-- The configuration record of 00_scope.md R10 and R12: the named constants without a value and one
total function per external primitive (46_primitives.md R210). `noise` lists the white-noise draws in
the order the engine takes them (R223). -/
structure Cfg where
  /-- "audio sample rate" (R10). No rule reads it: R134 multiplies by `srRecip`. -/
  sampleRate : Num32
  /-- `SR_RECIP`, "the reciprocal of the sample rate". -/
  srRecip : Num32
  /-- `F_MAX`, "a hard maximum audio frequency". -/
  fMax : Num32
  /-- `NOTE_MOD_SCALE`, "a fixed note-modulation scale factor". -/
  noteModScale : Num32
  /-- `DITHER_SCALE`, the size of the white noise added to an increment. -/
  ditherScale : Num32
  /-- `PARAM_SCALE`, the scale of the drive control. -/
  paramScale : Num32
  /-- `noteToFrequency(note) -> Hz` (46_primitives.md R211). -/
  noteHz : BitVec 9 → Num32
  /-- `noteToSawTableIndex(note)` (R212). -/
  sawIdx : BitVec 9 → Num32
  /-- `noteToSquareTableIndex(note)` (R213). -/
  sqrIdx : BitVec 9 → Num32
  /-- `evaluateBandLimitedSaw(phase, tableIndex)` (R214). -/
  blSaw : Num32 → Num32 → Num32
  /-- `evaluateBandLimitedSquare(phase, tableIndex)` (R215). -/
  blSqr : Num32 → Num32 → Num32
  /-- `softClip(threshold, signal)` (R216). -/
  softClip : Num32 → Num32 → Num32
  /-- `linearInterpolate(t, a, b)` (R217). -/
  lerp : Num32 → Num32 → Num32 → Num32
  /-- `clipToMax(value, max)` (R218). -/
  clipMax : Num32 → Num32 → Num32
  /-- `clip01(value)` (R219). -/
  clip01 : Num32 → Num32
  /-- "a normalized-parameter-to-float primitive" (R221). -/
  paramToFloat : BitVec 16 → Num32
  /-- `floatToFixedPoint(sample)` (R222). -/
  toFixed : Num32 → SmpWord
  /-- `whiteNoiseSample()`: the value of the n-th draw, n counting from 0 (R223). -/
  noise : Nat → Num32

/-- The arithmetic operations whose result can be an undefined value (93_implementation_defined.md U6). -/
inductive ArithOp where
  | add
  | mul
  | div
  | floor
deriving DecidableEq, Repr

/-! The open values, one opaque constant each (92_eei_decisions.md D13, D24: `OPEN`). -/

/-- FREE (R10): `SAMPLE_RATE`. -/
opaque Config.sampleRate : Num32
/-- FREE (R10): `SR_RECIP`. -/
opaque Config.srRecip : Num32
/-- FREE (R10): `F_MAX`. -/
opaque Config.fMax : Num32
/-- FREE (R10): `NOTE_MOD_SCALE`. -/
opaque Config.noteModScale : Num32
/-- FREE (R10): `DITHER_SCALE`. -/
opaque Config.ditherScale : Num32
/-- FREE (R10): `PARAM_SCALE`. -/
opaque Config.paramScale : Num32
/-- FREE (46_primitives.md R211): `noteHz`. -/
opaque Config.noteHz : BitVec 9 → Num32
/-- FREE (R212): `sawIdx`. -/
opaque Config.sawIdx : BitVec 9 → Num32
/-- FREE (R213): `sqrIdx`. -/
opaque Config.sqrIdx : BitVec 9 → Num32
/-- FREE (R214): `blSaw`. -/
opaque Config.blSaw : Num32 → Num32 → Num32
/-- FREE (R215): `blSqr`. -/
opaque Config.blSqr : Num32 → Num32 → Num32
/-- FREE (R216): `softClip`. -/
opaque Config.softClip : Num32 → Num32 → Num32
/-- FREE (R217): `lerp`. -/
opaque Config.lerp : Num32 → Num32 → Num32 → Num32
/-- FREE (R218): `clipMax`. -/
opaque Config.clipMax : Num32 → Num32 → Num32
/-- FREE (R219): `clip01`. -/
opaque Config.clip01 : Num32 → Num32
/-- FREE (R221): `paramToFloat`. -/
opaque Config.paramToFloat : BitVec 16 → Num32
/-- FREE (R222, 92_eei_decisions.md D11 "`OPEN` in effect"): `toFixed`. -/
opaque Config.toFixed : Num32 → SmpWord
/-- FREE (R223, 93_implementation_defined.md U7): the white-noise draws. -/
opaque Config.noise : Nat → Num32
/-- FREE (93_implementation_defined.md U6 "`any value`"): the result of an operation on a NaN or an
infinity, and of 0/0. An operation with one operand is applied to it twice. -/
opaque Config.undefinedNum : ArithOp → Num32 → Num32 → Num32

/-- The given configuration: every field an open value. The machine runs with it, once it keeps what the
rules state of some primitives (`Config.cfg`, Machine/Primitives.lean). -/
def Config.given : Cfg where
  sampleRate := Config.sampleRate
  srRecip := Config.srRecip
  fMax := Config.fMax
  noteModScale := Config.noteModScale
  ditherScale := Config.ditherScale
  paramScale := Config.paramScale
  noteHz := Config.noteHz
  sawIdx := Config.sawIdx
  sqrIdx := Config.sqrIdx
  blSaw := Config.blSaw
  blSqr := Config.blSqr
  softClip := Config.softClip
  lerp := Config.lerp
  clipMax := Config.clipMax
  clip01 := Config.clip01
  paramToFloat := Config.paramToFloat
  toFixed := Config.toFixed
  noise := Config.noise

/-! What the source fixes (00_scope.md R9). The number patterns are those of 46_primitives.md R225. -/

/-- `MAX_VOICES` = 4. -/
def Config.maxVoices : Nat := 4
/-- The capacity midpoint `MAX_VOICES / 2` = 2. -/
def Config.midpoint : Nat := 2
/-- `RING_SEED` = the binary32 nearest to 0.9 (43_phase_waveform.md R154). -/
def Config.ringSeed : Num32 := 0x3F666666#32
/-- `MIX_WEIGHT` = 1 / MAX_VOICES = 0.25. -/
def Config.mixWeight : Num32 := 0x3E800000#32
/-- `OCTAVE_OFFSET` = 12 semitones. -/
def Config.octaveOffset : BitVec 9 := 12#9
/-- `FIFTH_OFFSET` = 7 semitones. -/
def Config.fifthOffset : BitVec 9 := 7#9
/-- `DRIVE_DIV` = 3, as a `num`. -/
def Config.driveDiv : Num32 := 0x40400000#32

end Sys2Proof
end

