-- ==== Sys2Proof/Machine/Float.lean ====
section
/-! DEFINITION. The arithmetic of `Num32`, IEEE 754 binary32: every operation rounded on its own, round to
nearest, ties to even, gradual underflow, nothing fused (00_scope.md R11, R14; 92_eei_decisions.md D10).
A finite datum is an exact whole number of the smallest subnormal 2^-149 (`F32.units`); each operation
computes exactly in whole numbers and rounds once (`F32.roundMag`). -/

namespace Sys2Proof.Machine

/-- The sign bit. -/
def F32.sign (x : Num32) : Bool := x.msb

/-- The pattern without its sign bit. It orders the magnitudes. -/
def F32.mag (x : Num32) : Nat := x.toNat % 2 ^ 31

/-- Neither an infinity nor a NaN. -/
def F32.isFinite (x : Num32) : Bool := decide (F32.mag x < 0x7F800000)

/-- The magnitude a finite pattern stands for, in units of 2^-149: subnormals have exponent field 0, the
others an implicit leading 1. -/
def F32.patUnits (m : Nat) : Nat :=
  if m / 2 ^ 23 = 0 then m % 2 ^ 23 else (2 ^ 23 + m % 2 ^ 23) * 2 ^ (m / 2 ^ 23 - 1)

/-- The magnitude of a finite datum in units of 2^-149. -/
def F32.magUnits (x : Num32) : Nat := F32.patUnits (F32.mag x)

/-- The exact value of a finite datum in units of 2^-149. -/
def F32.units (x : Num32) : Int :=
  if F32.sign x then -(F32.magUnits x : Int) else (F32.magUnits x : Int)

/-- The number 1 in units of 2^-149. -/
def F32.oneUnits : Nat := 2 ^ 149

/-- The whole number nearest to `n / d`, ties to the even one. -/
def F32.roundDiv (n d : Nat) : Nat :=
  if 2 * (n % d) < d then n / d
  else if d < 2 * (n % d) then n / d + 1
  else n / d + (n / d) % 2

/-- The pattern (without sign) of the binary32 datum nearest to the magnitude `n / d`, given in units of
2^-149; the pattern of infinity where that overflows. With `k` the number of low bits that do not fit a
24-bit significand, the significand `m` and `k` make the pattern `k * 2^23 + m`, for subnormals too, and
a carry out of the significand carries into the exponent. -/
def F32.roundMag (n d : Nat) : Nat :=
  let k := Nat.log2 (n / d) - 23
  min (k * 2 ^ 23 + F32.roundDiv n (d * 2 ^ k)) 0x7F800000

/-- The datum with the given sign and magnitude pattern. -/
def F32.pack (neg : Bool) (m : Nat) : Num32 :=
  BitVec.ofNat 32 (if neg then 2 ^ 31 + m else m)

/-- Sign change: exact for every datum (42_resolver.md R131). -/
def F32.neg (x : Num32) : Num32 := x ^^^ 0x80000000#32

/-- `a + b`. An exact zero sum is +0 unless both operands are negative. A non-finite operand: an
undefined value (93_implementation_defined.md U6). -/
def F32.add (a b : Num32) : Num32 :=
  if F32.isFinite a && F32.isFinite b then
    let z := F32.units a + F32.units b
    F32.pack (if z = 0 then F32.sign a && F32.sign b else decide (z < 0)) (F32.roundMag z.natAbs 1)
  else Config.undefinedNum .add a b

/-- `a - b`: the sum with the sign of `b` changed. -/
def F32.sub (a b : Num32) : Num32 := F32.add a (F32.neg b)

/-- `a * b`. A non-finite operand: an undefined value (U6). -/
def F32.mul (a b : Num32) : Num32 :=
  if F32.isFinite a && F32.isFinite b then
    F32.pack (F32.sign a ^^ F32.sign b)
      (F32.roundMag (F32.magUnits a * F32.magUnits b) F32.oneUnits)
  else Config.undefinedNum .mul a b

/-- `a / b`. A non-zero number over a zero is an infinity, as binary32 has it; 0/0 and a non-finite
operand: an undefined value (U6). -/
def F32.div (a b : Num32) : Num32 :=
  if F32.isFinite a && F32.isFinite b then
    if F32.magUnits b = 0 then
      if F32.magUnits a = 0 then Config.undefinedNum .div a b
      else F32.pack (F32.sign a ^^ F32.sign b) 0x7F800000
    else
      F32.pack (F32.sign a ^^ F32.sign b)
        (F32.roundMag (F32.magUnits a * F32.oneUnits) (F32.magUnits b))
  else Config.undefinedNum .div a b

/-- `floor(x)`, the greatest integer not above `x` (00_scope.md R14), a zero result with the sign of
`x`. A non-finite `x`: an undefined value (U6). -/
def F32.floor (x : Num32) : Num32 :=
  if F32.isFinite x then
    let z := Int.fdiv (F32.units x) F32.oneUnits
    F32.pack (if z = 0 then F32.sign x else decide (z < 0))
      (F32.roundMag (z.natAbs * F32.oneUnits) 1)
  else Config.undefinedNum .floor x x

/-- `num(n)`: the unsigned integer `n` as a number, exact below 2^24 (00_scope.md R14). -/
def F32.ofNat (n : Nat) : Num32 := F32.pack false (F32.roundMag (n * F32.oneUnits) 1)

/-- +0.0. -/
def F32.zero : Num32 := 0#32

/-- 1.0. -/
def F32.one : Num32 := 0x3F800000#32

/-- A NaN pattern. -/
def F32.isNaN (x : Num32) : Bool := decide (0x7F800000 < F32.mag x)

/-- The place of a datum in the order of the numbers and the two infinities; the zeros share a place. -/
def F32.place (x : Num32) : Int := if F32.sign x then -(F32.mag x : Int) else (F32.mag x : Int)

/-- `a < b`; false where either is a NaN. -/
def F32.lt (a b : Num32) : Bool :=
  !F32.isNaN a && !F32.isNaN b && decide (F32.place a < F32.place b)

/-- `a ≤ b`; false where either is a NaN. -/
def F32.le (a b : Num32) : Bool :=
  !F32.isNaN a && !F32.isNaN b && decide (F32.place a ≤ F32.place b)

/-- A finite datum in the closed interval [0, 1]. -/
def F32.inUnit (x : Num32) : Bool :=
  F32.isFinite x && decide (0 ≤ F32.units x) && decide (F32.units x ≤ F32.oneUnits)

/-- A finite datum in the closed interval [-1, 1]. -/
def F32.inSignedUnit (x : Num32) : Bool :=
  F32.isFinite x && decide (F32.magUnits x ≤ F32.oneUnits)

/-- A finite datum in the half-open interval [0, 1), the range of a phase (10_state.md R31). -/
def F32.inPhaseRange (x : Num32) : Bool :=
  F32.isFinite x && decide (0 ≤ F32.units x) && decide (F32.units x < F32.oneUnits)

end Sys2Proof.Machine
end

