-- ==== Sys2Proof/Machine/Primitives.lean ====
section
/-! DEFINITION. The function units (20_memory.md R64; 46_primitives.md). Every meaning is a function of a
configuration `c : Cfg` and calls its fields as they are, assuming nothing of them (00_scope.md R12). What a
numbered rule states of a primitive's result stands here, apart from the meanings: `Cfg.conform` keeps
exactly that of any configuration, leaves the field its say wherever no rule speaks, and changes nothing of
a configuration that meets the rules. The machine runs with `Config.given.conform`. -/

namespace Sys2Proof

open Sys2Proof.Machine

namespace Machine

/-- A result whose contract is to be finite. -/
def Prim.finite (v : Num32) : Num32 := if F32.isFinite v then v else F32.zero

/-- A result of which the range [-1, 1] is stated, as of `noise()` (46_primitives.md R223). -/
def Prim.signedUnit (v : Num32) : Num32 := if F32.inSignedUnit v then v else F32.zero

/-- A constant that is finite and positive (`PARAM_SCALE`: 45_lifecycle.md R194). -/
def Prim.positive (v : Num32) : Num32 :=
  if F32.isFinite v && decide (0 < F32.units v) then v else F32.one

/-- A soft clip: "finite for finite operands" (46_primitives.md R216). -/
def Prim.softClip (f : Num32 → Num32 → Num32) (t s : Num32) : Num32 :=
  if F32.isFinite t && F32.isFinite s then Prim.finite (f t s) else f t s

/-- A clip to [0, 1]. Stated: the range (46_primitives.md R219, "The source fixes the range"; 10_state.md
R40), 1 for 1 and above, +0 for a zero, never negative (45_lifecycle.md R194, 60_exceptions.md R241).
Between 0 and 1 the value is the primitive's. -/
def Prim.clip01 (f : Num32 → Num32) (v : Num32) : Num32 :=
  if F32.le v F32.zero then F32.zero
  else if F32.le F32.one v then F32.one
  else if F32.inUnit (f v) then f v
  else if F32.isFinite v then v
  else F32.zero

/-- A clip to a hard maximum. Stated of finite operands: the maximum from it on, no lower bound, a negative
value "used as is", and no result above the maximum (42_resolver.md R133, R137 c and d; 60_exceptions.md
R241). From 0 up to the maximum the value is the primitive's. -/
def Prim.clipMax (f : Num32 → Num32 → Num32) (v m : Num32) : Num32 :=
  if F32.isFinite v && F32.isFinite m then
    if F32.le m v then m
    else if F32.lt v F32.zero then v
    else if F32.le (f v m) m then f v m
    else v
  else f v m

/-- A conversion to a sample word: "the two zeros give the same word 0" (90_conflicts.md C6). Every other
word, outside the range as well, is the primitive's (92_eei_decisions.md D11 "`OPEN` in effect";
93_implementation_defined.md U4); the saturation of R177 is the default body's. -/
def Prim.toFixed (f : Num32 → SmpWord) (s : Num32) : SmpWord :=
  if F32.isFinite s && decide (F32.magUnits s = 0) then 0#32 else f s

end Machine

/-- Any configuration, made to keep what the rules state of the primitives. -/
def Cfg.conform (c : Cfg) : Cfg :=
  { c with
    paramScale := Prim.positive c.paramScale
    blSaw := fun p x => Prim.finite (c.blSaw p x)
    blSqr := fun p x => Prim.finite (c.blSqr p x)
    softClip := Prim.softClip c.softClip
    clipMax := Prim.clipMax c.clipMax
    clip01 := Prim.clip01 c.clip01
    toFixed := Prim.toFixed c.toFixed
    noise := fun n => Prim.signedUnit (c.noise n) }

/-- The configuration the machine runs with. -/
def Config.cfg : Cfg := Config.given.conform

end Sys2Proof
end

