-- ==== Sys2Proof/Machine/Operands.lean ====
section
/-! DEFINITION. How operands and the mode are read: the mode policy table (10_state.md R22), the mode
number of `SETP.MODE` (30_encoding.md R80), the conversion `num(.)` of a field (R79). There is no
Flags.lean beside this file: the engine has no flags (10_state.md R36). -/

namespace Sys2Proof.Machine

/-- Allocation policies of 10_state.md R22; a pair carries its second voice's offset. -/
inductive AllocPolicy where
  | poly
  | pair (off : BitVec 9)
  | unison
deriving DecidableEq, Repr

/-- Waveform kinds of 10_state.md R22. -/
inductive WaveKind where
  | saw
  | square
deriving DecidableEq, Repr

/-- Combinations of 10_state.md R22. -/
inductive Combination where
  | additive
  | ring
deriving DecidableEq, Repr

/-- `alloc(mode)` (10_state.md R22), with the offset of 41_allocator.md R114. -/
def allocPolicy : Mode → AllocPolicy
  | .poly => .poly
  | .unison => .unison
  | .octave => .pair Config.octaveOffset
  | .fifth => .pair Config.fifthOffset
  | .unisonRing => .unison
  | .polyRing => .poly

/-- `kind(mode)` (10_state.md R22). -/
def waveKind : Mode → WaveKind
  | .poly => .saw
  | .unison => .saw
  | .octave => .saw
  | .fifth => .saw
  | .unisonRing => .square
  | .polyRing => .square

/-- `comb(mode)` (10_state.md R22). -/
def combination : Mode → Combination
  | .poly => .additive
  | .unison => .additive
  | .octave => .additive
  | .fifth => .additive
  | .unisonRing => .ring
  | .polyRing => .ring

/-- `idx(kind, n)` (10_state.md R22). -/
def tableIndex (c : Cfg) (k : WaveKind) (n : BitVec 9) : Num32 :=
  match k with
  | .saw => c.sawIdx n
  | .square => c.sqrIdx n

/-- The mode a `SETP.MODE` value names: 0 to 5, and none from 6 on (30_encoding.md R80). -/
def modeOfValue (v : BitVec 16) : Option Mode :=
  if v = 0#16 then some .poly
  else if v = 1#16 then some .unison
  else if v = 2#16 then some .octave
  else if v = 3#16 then some .fifth
  else if v = 4#16 then some .unisonRing
  else if v = 5#16 then some .polyRing
  else none

/-- `num(value)` of a 16-bit parameter value (45_lifecycle.md R194). -/
def numOfValue (v : BitVec 16) : Num32 := F32.ofNat v.toNat

/-- `num(modByte)` (42_resolver.md R132). -/
def numOfMod (m : BitVec 8) : Num32 := F32.ofNat m.toNat

end Sys2Proof.Machine
end

