-- ==== Sys2Proof/Machine/State.lean ====
section
/-! DEFINITION. The state of key4 CORE: the engine registers of 10_state.md R20, the port signals of
20_memory.md R52 and R53, and the model's own counter of white-noise draws. -/

namespace Sys2Proof.Machine

/-- One voice slot, `Voice` of 10_state.md R20. -/
structure Voice where
  /-- "integer note number assigned to this voice", 9 bits (R29). -/
  note : BitVec 9
  /-- `waveTableIndex`, "float index into the band-limited table" (R30). -/
  wti : Num32
  /-- The phase accumulator (R31). -/
  phase : Num32
  /-- The per-sample phase increment (R32). -/
  inc : Num32
deriving DecidableEq, Repr

/-- The voice register file `V[0..3]` (10_state.md R28): four slots, no aliases, no banks. -/
structure VoiceFile where
  v0 : Voice
  v1 : Voice
  v2 : Voice
  v3 : Voice
deriving DecidableEq, Repr

/-- One transfer on the `SMP` port: `smp_data` and the `smp_last` that goes with it (20_memory.md R53). -/
structure Beat where
  data : SmpWord
  last : Bool
deriving DecidableEq, Repr

/-- The state. The first seven fields are the record `S` of 10_state.md R20. -/
structure State where
  /-- CR0 `mode` (10_state.md R21). -/
  mode : Mode
  /-- CR1 `driveAmount` (R23). -/
  driveAmount : Num32
  /-- CR2 `detuneAmount` (R24). -/
  detuneAmount : Num32
  /-- CR3 `voiceCount`, 3 bits (R25). -/
  voiceCount : BitVec 3
  /-- CR4 `nextSlot`, 2 bits (R26). -/
  nextSlot : BitVec 2
  /-- CR5 `lastNoteSeen`, 8 bits (R27). -/
  lastNoteSeen : BitVec 8
  /-- `V[0..3]` (R28). -/
  voices : VoiceFile
  /-- `cmd_ready` of the `CMD` port (20_memory.md R52). -/
  cmdReady : Bool
  /-- `smp_valid` of the `SMP` port (20_memory.md R53). -/
  smpValid : Bool
  /-- The host's side of the `CMD` port: the command words it has still to issue, the next one first.
  `cmd_valid` is 1 while there is one, and `cmd_word` is the first (20_memory.md R52, 00_scope.md R8
  "program"). -/
  cmds : List CmdWord
  /-- The `SMP` port seen from the sink: every transfer so far, the oldest first (20_memory.md R53). -/
  smp : List Beat
  /-- The MODEL's own field: how many white-noise values have been taken so far. It stands for the
  generator's state, which is outside the engine (10_state.md R38). No statement rests on its value. -/
  draws : Nat
deriving DecidableEq, Repr

/-- Why the machine stops with a fault: never. "The cause-code table is empty" (60_exceptions.md R240),
so this type has no constructor. Safe: no run is cut short. -/
inductive Fault where
deriving DecidableEq, Repr

/-- Why the machine has no meaning for an operation. -/
inductive Refusal where
  /-- Raised only by an arm of `exec` whose operation has no meaning yet; at present no arm raises it.
  Safe: a claim about such an operation cannot be proved. -/
  | notModelled (mnemonic : String)
deriving DecidableEq, Repr

/-- A voice slot after reset (10_state.md R39). -/
def Voice.zero : Voice := { note := 0#9, wti := 0#32, phase := 0#32, inc := 0#32 }

/-- The voice file after reset (10_state.md R39). -/
def VoiceFile.zero : VoiceFile :=
  { v0 := Voice.zero, v1 := Voice.zero, v2 := Voice.zero, v3 := Voice.zero }

/-- The state right after hardware reset: the registers of 10_state.md R39 (the pattern `0#32` is +0.0),
`cmd_ready` = 1 and `smp_valid` = 0 (20_memory.md R59, 70_reset_and_hazards.md R270), no command issued
and no sample emitted yet. -/
def State.reset : State where
  mode := .poly
  driveAmount := 0#32
  detuneAmount := 0#32
  voiceCount := 0#3
  nextSlot := 0#2
  lastNoteSeen := 0#8
  voices := VoiceFile.zero
  cmdReady := true
  smpValid := false
  cmds := []
  smp := []
  draws := 0

end Sys2Proof.Machine
end

