-- ==== Sys2Proof/Machine/Ops.lean ====
section
/-! DEFINITION. The named operations over the state: the voice file (10_state.md R28), the active slots
(R25), a white-noise draw (46_primitives.md R223), the two ports (20_memory.md R52, R53), zeroing the
registers (10_state.md R39). There is no memory to access (20_memory.md R51) and no exception to take or
return from (60_exceptions.md R240, R245). -/

namespace Sys2Proof.Machine

/-- What a meaning answers. -/
abbrev Result := Host.Outcome State Fault Refusal

/-! ## The voice register file -/

/-- `V[i]` (10_state.md R28). -/
def VoiceFile.get (f : VoiceFile) : Fin 4 → Voice
  | 0 => f.v0
  | 1 => f.v1
  | 2 => f.v2
  | 3 => f.v3

/-- `V[i] <- v`. -/
def VoiceFile.set (f : VoiceFile) (v : Voice) : Fin 4 → VoiceFile
  | 0 => { f with v0 := v }
  | 1 => { f with v1 := v }
  | 2 => { f with v2 := v }
  | 3 => { f with v3 := v }

/-- `V[i]` of the state. -/
def State.voice (s : State) (i : Fin 4) : Voice := s.voices.get i

/-- The state with `V[i]` replaced. -/
def State.putVoice (s : State) (i : Fin 4) (v : Voice) : State :=
  { s with voices := s.voices.set v i }

/-- The active slots, ascending: those with index below `voiceCount` (10_state.md R25, 42_resolver.md
R130). -/
def State.activeSlots (s : State) : List (Fin 4) :=
  [0, 1, 2, 3].filter (fun i => decide (i.val < s.voiceCount.toNat))

/-! ## Draws -/

/-- The value the next call of `noise()` returns (46_primitives.md R223). -/
def State.nextDraw (c : Cfg) (s : State) : Num32 := c.noise s.draws

/-- The state after one call of `noise()`: the next call takes the next value. -/
def State.afterDraw (s : State) : State := { s with draws := s.draws + 1 }

/-! ## The ports -/

/-- `cmd_valid`: the host offers a command word (20_memory.md R52). -/
def State.cmdValid (s : State) : Bool := !s.cmds.isEmpty

/-- The transfer of a command word, where `cmd_valid` and `cmd_ready` are both 1: the word, and the state
in which its operation runs, with `cmd_ready` = 0 (20_memory.md R52). Otherwise no word is transferred. -/
def State.transfer (s : State) : Option (CmdWord × State) :=
  match s.cmdReady, s.cmds with
  | true, w :: rest => some (w, { s with cmds := rest, cmdReady := false })
  | true, [] => none
  | false, _ => none

/-- The operation has completed: `cmd_ready` is 1 again (20_memory.md R52). -/
def State.complete (s : State) : State := { s with cmdReady := true }

/-- `Emit(k, v)`: one transfer on the `SMP` port, `smp_valid` = 1 with the word and its `smp_last`
(00_scope.md R15, 20_memory.md R53). The place `k` is the order of the transfers (R57). -/
def State.emit (s : State) (v : SmpWord) (last : Bool) : State :=
  { s with smp := s.smp ++ [{ data := v, last := last }], smpValid := true }

/-- No further word is offered: `smp_valid` = 0 (20_memory.md R53, R59). -/
def State.endStream (s : State) : State := { s with smpValid := false }

/-! ## Registers -/

/-- "zero all engine state": every register at its value of 10_state.md R39. The ports, the words issued
and emitted, and the noise generator are not engine registers and stay. -/
def State.zeroRegisters (s : State) : State :=
  { s with
    mode := .poly
    driveAmount := F32.zero
    detuneAmount := F32.zero
    voiceCount := 0#3
    nextSlot := 0#2
    lastNoteSeen := 0#8
    voices := VoiceFile.zero }

end Sys2Proof.Machine
end

