-- ==== Sys2Proof/Machine/Lifecycle.lean ====
section
/-! DEFINITION. The meanings of the seven lifecycle operations (45_lifecycle.md). None emits a sample,
takes a draw or can fail. -/

namespace Sys2Proof.Machine

/-- `INIT`: every register to its reset value; the operands are not consulted (45_lifecycle.md R186). -/
def execInit (_plat : BitVec 12) (_api : BitVec 16) (s : State) : Result :=
  .next s.zeroRegisters

/-- `NOTEON`: `voiceCount` and `nextSlot` to 0. No phase is written and no draw taken, since the
randomization runs over zero voices (R187, R188; 90_conflicts.md C1). -/
def execNoteOn (_np : BitVec 28) (s : State) : Result :=
  .next { s with voiceCount := 0#3, nextSlot := 0#2 }

/-- `NOTEOFF`: nothing (R190). -/
def execNoteOff (_np : BitVec 28) (s : State) : Result := .next s

/-- `SETP.MODE`: the mode the value names; a value above 5 changes nothing (R193). No table index is
rewritten (10_state.md R41, 90_conflicts.md C2). -/
def execSetpMode (v : BitVec 16) (s : State) : Result :=
  match modeOfValue v with
  | some m => .next { s with mode := m }
  | none => .next s

/-- `clip01(num(value) * PARAM_SCALE)` (R194). -/
def driveOfValue (c : Cfg) (v : BitVec 16) : Num32 :=
  c.clip01 (F32.mul (numOfValue v) c.paramScale)

/-- `SETP.DRIVE` (R194). -/
def execSetpDrive (v : BitVec 16) (s : State) : Result :=
  .next { s with driveAmount := driveOfValue Config.cfg v }

/-- `SETP.DETUNE`: stored without clamping (R195). -/
def execSetpDetune (v : BitVec 16) (s : State) : Result :=
  .next { s with detuneAmount := Config.cfg.paramToFloat v }

/-- `SETP.AUX`: accepted, no effect (R196). -/
def execSetpAux (_v : BitVec 16) (s : State) : Result := .next s

end Sys2Proof.Machine
end

