-- ==== Sys2Proof/Machine/Alloc.lean ====
section
/-! DEFINITION. The Voice Allocator stage of `SYNTH` (41_allocator.md). -/

namespace Sys2Proof.Machine

/-- `SetVoice(i, n)`: the note and its table index by the current mode's waveform kind; `phase` and `inc`
stay (41_allocator.md R110). -/
def setVoice (c : Cfg) (i : Fin 4) (n : BitVec 9) (s : State) : State :=
  s.putVoice i { s.voice i with note := n, wti := tableIndex c (waveKind s.mode) n }

/-- `zext_9(baseNote)` (41_allocator.md R112). -/
def baseNote9 (base : BitVec 8) : BitVec 9 := base.zeroExtend 9

/-- `min(voiceCount + 1, 4)`, the saturating increment of 41_allocator.md R112 and R118. -/
def bumpCount (n : BitVec 3) : BitVec 3 := BitVec.ofNat 3 (min (n.toNat + 1) Config.maxVoices)

/-- The new-note test of `ALLOC.POLY`: `voiceCount = 0 or baseNote != lastNoteSeen` (R112). -/
def isNewNote (base : BitVec 8) (s : State) : Bool :=
  decide (s.voiceCount = 0#3) || decide (base ≠ s.lastNoteSeen)

/-- `ALLOC.POLY(baseNote)` (41_allocator.md R112). -/
def allocPoly (c : Cfg) (base : BitVec 8) (s : State) : State :=
  if isNewNote base s then
    { setVoice c s.nextSlot.toFin (baseNote9 base) s with
      nextSlot := s.nextSlot + 1#2
      voiceCount := bumpCount s.voiceCount
      lastNoteSeen := base }
  else s

/-- What both full-reset policies do: rebuild the four slots, slots 0 and 2 with `n0`, slots 1 and 3 with
`n1`, `voiceCount` 4, `nextSlot` 0; `lastNoteSeen` stays (41_allocator.md R114, R116). -/
def allocFull (c : Cfg) (n0 n1 : BitVec 9) (s : State) : State :=
  { setVoice c 3 n1 (setVoice c 2 n0 (setVoice c 1 n1 (setVoice c 0 n0 s))) with
    voiceCount := 4#3
    nextSlot := 0#2 }

/-- `ALLOC.PAIR(baseNote)` with the mode's offset (41_allocator.md R114). -/
def allocPair (c : Cfg) (off : BitVec 9) (base : BitVec 8) (s : State) : State :=
  allocFull c (baseNote9 base) (baseNote9 base + off) s

/-- `ALLOC.UNI(baseNote)` (41_allocator.md R116). -/
def allocUni (c : Cfg) (base : BitVec 8) (s : State) : State :=
  allocFull c (baseNote9 base) (baseNote9 base) s

/-- The stage: the policy `alloc(mode)` (40_synth.md R100, R103). -/
def alloc (c : Cfg) (base : BitVec 8) (s : State) : State :=
  match allocPolicy s.mode with
  | .poly => allocPoly c base s
  | .pair off => allocPair c off base s
  | .unison => allocUni c base s

end Sys2Proof.Machine
end

