-- ==== Sys2Proof/Machine/Drive.lean ====
section
/-! DEFINITION. The Drive Stage and the output conversion (44_drive_output.md). -/

namespace Sys2Proof.Machine

/-- The clip threshold parameter `c = d / 3` (44_drive_output.md R170). -/
def driveThreshold (d : Num32) : Num32 := F32.div d Config.driveDiv

/-- The makeup gain `g = d / (1 - c)` (R170). -/
def driveGain (d : Num32) : Num32 := F32.div d (F32.sub F32.one (driveThreshold d))

/-- `DRIVE(mix)` at drive amount `d`: `(g * softClip(c, mix)) + ((1 - d) * mix)` (R170). -/
def drive (c : Cfg) (d mixed : Num32) : Num32 :=
  F32.add (F32.mul (driveGain d) (c.softClip (driveThreshold d) mixed))
    (F32.mul (F32.sub F32.one d) mixed)

/-- `CONV(out)` = `toFixed(out)` (R174). -/
def conv (c : Cfg) (out : Num32) : SmpWord := c.toFixed out

end Sys2Proof.Machine
end

