-- ==== Sys2Proof/Machine/Mix.lean ====
section
/-! DEFINITION. The Phase/Waveform Engine: `MIX.ADD`, `MIX.RING`, `PHADV` (43_phase_waveform.md). -/

namespace Sys2Proof.Machine

/-- The phase after one frame: `x <- phase + inc`, then `x - floor(x)` (43_phase_waveform.md R156). -/
def nextPhase (phase inc : Num32) : Num32 :=
  F32.sub (F32.add phase inc) (F32.floor (F32.add phase inc))

/-- `PHADV(i)` (R156). -/
def phadv (i : Fin 4) (s : State) : State :=
  s.putVoice i { s.voice i with phase := nextPhase (s.voice i).phase (s.voice i).inc }

/-- One trip of the loop of `MIX.ADD`, on the running mix and the state (R152). -/
def mixAddVoice (c : Cfg) (acc : Num32 × State) (i : Fin 4) : Num32 × State :=
  (F32.add acc.1
    (F32.mul Config.mixWeight (c.blSaw (acc.2.voice i).phase (acc.2.voice i).wti)),
   phadv i acc.2)

/-- `MIX.ADD()`: from +0, the weighted saw samples of the active voices added in ascending order (R152). -/
def mixAdd (c : Cfg) (s : State) : Num32 × State :=
  s.activeSlots.foldl (mixAddVoice c) (F32.zero, s)

/-- One trip of the loop of `MIX.RING` (R154). -/
def mixRingVoice (c : Cfg) (acc : Num32 × State) (i : Fin 4) : Num32 × State :=
  (F32.mul acc.1 (c.blSqr (acc.2.voice i).phase (acc.2.voice i).wti), phadv i acc.2)

/-- `MIX.RING()`: from the seed, multiplied by the square samples of the active voices in turn (R154). -/
def mixRing (c : Cfg) (s : State) : Num32 × State :=
  s.activeSlots.foldl (mixRingVoice c) (Config.ringSeed, s)

/-- The mix of one frame by `comb(mode)`: the value `sig` and the state with the phases advanced
(40_synth.md R100, 43_phase_waveform.md R159). -/
def mix (c : Cfg) (s : State) : Num32 × State :=
  match combination s.mode with
  | .additive => mixAdd c s
  | .ring => mixRing c s

end Sys2Proof.Machine
end

