-- ==== Sys2Proof/Machine/Resolve.lean ====
section
/-! DEFINITION. The Frequency Resolver stage of `SYNTH` (42_resolver.md). -/

namespace Sys2Proof.Machine

/-- The detune offset of slot `i`: `-detuneAmount` below the capacity midpoint, `+detuneAmount` from it
on; "an exact sign change" (42_resolver.md R131). -/
def detuneOffset (detune : Num32) (i : Fin 4) : Num32 :=
  if i.val < Config.midpoint then F32.neg detune else detune

/-- The interpolation parameter `t = (num(modByte) * NOTE_MOD_SCALE) + off`, not clamped (R132). -/
def modulation (c : Cfg) (mod : BitVec 8) (off : Num32) : Num32 :=
  F32.add (F32.mul (numOfMod mod) c.noteModScale) off

/-- The effective frequency: interpolated between the note and the next one, then clipped from above
(R132, R133). -/
def frequency (c : Cfg) (note : BitVec 9) (t : Num32) : Num32 :=
  c.clipMax (c.lerp t (c.noteHz note) (c.noteHz (note + 1#9))) c.fMax

/-- The increment `(f * SR_RECIP) + (DITHER_SCALE * n)` with the draw `n` (R134). -/
def increment (c : Cfg) (f n : Num32) : Num32 :=
  F32.add (F32.mul f c.srRecip) (F32.mul c.ditherScale n)

/-- The increment `RESOLVE` computes for slot `i` holding `note` (R130). -/
def resolvedInc (c : Cfg) (mod : BitVec 8) (detune : Num32) (i : Fin 4) (note : BitVec 9) (n : Num32) : Num32 :=
  increment c (frequency c note (modulation c mod (detuneOffset detune i))) n

/-- One trip of the loop of `RESOLVE`: slot `i` takes one draw and gets its increment (R130, R136). -/
def resolveVoice (c : Cfg) (mod : BitVec 8) (s : State) (i : Fin 4) : State :=
  s.afterDraw.putVoice i
    { s.voice i with inc := resolvedInc c mod s.detuneAmount i (s.voice i).note (s.nextDraw c) }

/-- `RESOLVE(modByte)`: every active voice, ascending (R130, R136). -/
def resolve (c : Cfg) (mod : BitVec 8) (s : State) : State :=
  s.activeSlots.foldl (resolveVoice c mod) s

end Sys2Proof.Machine
end

