-- ==== Sys2Proof/Machine/Synth.lean ====
section
/-! DEFINITION. The meaning of `SYNTH` (40_synth.md). -/

namespace Sys2Proof.Machine

/-- The control update: allocation completely, then resolution completely (40_synth.md R102). -/
def controlUpdate (c : Cfg) (note mod : BitVec 8) (s : State) : State :=
  resolve c mod (alloc c note s)

/-- One frame: mix, drive, convert, emit; `last` is the `smp_last` of its word (40_synth.md R100, R104;
20_memory.md R53). -/
def frame (c : Cfg) (last : Bool) (s : State) : State :=
  (mix c s).2.emit (conv c (drive c s.driveAmount (mix c s).1)) last

/-- The frame loop with `n` frames still to do; the last of them carries `smp_last` (40_synth.md R104). -/
def frameLoop (c : Cfg) : Nat → State → State
  | 0, s => s
  | n + 1, s => frameLoop c n (frame c (n == 0) s)

/-- `SYNTH note, mod, frames` under a configuration (40_synth.md R100). -/
def synth (c : Cfg) (note mod : BitVec 8) (frames : BitVec 12) (s : State) : State :=
  (frameLoop c frames.toNat (controlUpdate c note mod s)).endStream

/-- The meaning of `SYNTH` (40_synth.md R100). -/
def execSynth (note mod : BitVec 8) (frames : BitVec 12) (s : State) : Result :=
  .next (synth Config.cfg note mod frames s)

end Sys2Proof.Machine
end

