-- ==== Sys2Proof/Machine/Dispatch.lean ====
section
/-! DEFINITION. One arm per constructor of `Instr`: the meaning of each operation. -/

namespace Sys2Proof.Machine

/-- What an operation does (30_encoding.md R72, R81). -/
def exec (i : Instr) (s : State) : Host.Outcome State Fault Refusal :=
  match i with
  | .init plat api => Sys2Proof.Machine.execInit plat api s
  | .synth note mod frames => Sys2Proof.Machine.execSynth note mod frames s
  | .noteOn np => Sys2Proof.Machine.execNoteOn np s
  | .noteOff np => Sys2Proof.Machine.execNoteOff np s
  | .setpMode value => Sys2Proof.Machine.execSetpMode value s
  | .setpDrive value => Sys2Proof.Machine.execSetpDrive value s
  | .setpDetune value => Sys2Proof.Machine.execSetpDetune value s
  | .setpAux value => Sys2Proof.Machine.execSetpAux value s

end Sys2Proof.Machine
end

