-- ==== Sys2Proof/Machine/Step.lean ====
section
/-! DEFINITION. One step: the engine takes the next command word from the `CMD` port and runs its
operation to the end (00_scope.md R17, 20_memory.md R52, R60). -/

namespace Sys2Proof.Machine

/-- One step. Where no word is transferred (the host offers none, or `cmd_ready` is 0) the engine is idle
and keeps all state (60_exceptions.md R255). A reserved word is accepted and changes nothing else
(30_encoding.md R82). -/
def step (s : State) : Host.Outcome State Fault Refusal :=
  match s.transfer with
  | none => .next s
  | some (w, t) =>
    match decode w with
    | .operation i =>
      match exec i t with
      | .next u => .next u.complete
      | .fault r => .fault r
      | .refused r => .refused r
    | .reserved _ => .next t.complete

/-- The state with one more command word, offered by the host before the words it already has to issue,
and the engine ready to take it: the word whose low `nbits` bits are those of `w`. -/
def State.withFetchWord (s : State) (nbits w : Nat) : State :=
  { s with cmds := tableWord nbits w :: s.cmds, cmdReady := true }

end Sys2Proof.Machine
end

