-- ==== Sys2Proof/Machine/Reference.lean ====
section
/-! DEFINITION. The reference configuration RC0 and the default bodies of the primitives
(46_primitives.md R211, R216 to R219, R221, R222, R225; 44_drive_output.md R177). They are the spec's
recommendation for a model that wants numbers and no rule depends on them (00_scope.md R10): the machine
runs with the opaque `Config.cfg`, and RC0 serves tests and statements about the defaults. -/

namespace Sys2Proof.Machine

/-- The largest `r` with `r ^ 12 ≤ n` that differs from `acc` in the `bits` low bits only. -/
def Rc0.root12 (n : Nat) : Nat → Nat → Nat
  | 0, acc => acc
  | bits + 1, acc =>
      Rc0.root12 n bits (if (acc + 2 ^ bits) ^ 12 ≤ n then acc + 2 ^ bits else acc)

/-- `440 * 2 ^ ((min(n, 151) - 69) / 12)` rounded to a `num` (R211). In units of 2^-149 the value is the
12th root of `440^12 * 2^(12 * 149 - 69 + min(n, 151))`; its whole part with one more bit that says
whether something follows it rounds as the root itself does. -/
def Rc0.noteHz (n : BitVec 9) : Num32 :=
  let p := 440 ^ 12 * 2 ^ (1719 + min n.toNat 151)
  let r := Rc0.root12 p 168 0
  F32.pack false (F32.roundMag (2 * r + (if r ^ 12 = p then 0 else 1)) 2)

/-- `s' = max(-1, min(1, s))` (R216). -/
def Rc0.clampSigned (s : Num32) : Num32 :=
  if F32.lt F32.one s then F32.one
  else if F32.lt s (F32.neg F32.one) then F32.neg F32.one
  else s

/-- `softClip(c, s) = s' - (c * ((s' * s') * s'))` (R216). -/
def Rc0.softClip (c s : Num32) : Num32 :=
  let x := Rc0.clampSigned s
  F32.sub x (F32.mul c (F32.mul (F32.mul x x) x))

/-- `lerp(t, a, b) = a + (t * (b - a))` (R217). -/
def Rc0.lerp (t a b : Num32) : Num32 := F32.add a (F32.mul t (F32.sub b a))

/-- `clipMax(v, m) = m` if `v >= m`, else `v` (R218). -/
def Rc0.clipMax (v m : Num32) : Num32 := if F32.le m v then m else v

/-- `clip01(v) = 0` if `v < 0`, `1` if `v > 1`, else `v` (R219). -/
def Rc0.clip01 (v : Num32) : Num32 :=
  if F32.lt v F32.zero then F32.zero else if F32.lt F32.one v then F32.one else v

/-- `paramToFloat(v) = num(v) * PARAM_SCALE` (R221). -/
def Rc0.paramToFloat (scale : Num32) (v : BitVec 16) : Num32 := F32.mul (F32.ofNat v.toNat) scale

/-- `trunc(s * 2^31)` of a finite `s`, toward zero (44_drive_output.md R177). -/
def Rc0.fixedInt (s : Num32) : Int := Int.tdiv (F32.units s * 2 ^ 31) F32.oneUnits

/-- Clamping to `[-2^31, 2^31 - 1]` (R177). -/
def Rc0.sat32 (z : Int) : Int := max (-(2 ^ 31)) (min (2 ^ 31 - 1) z)

/-- `toFixed(s) = sat32(trunc(s * 2^31))` (R177, R222). An infinity saturates ("any `s >= 1`", "any
`s <= -1`"); a NaN, out of domain, gives 0 (93_implementation_defined.md U6). -/
def Rc0.toFixed (s : Num32) : SmpWord :=
  if F32.isFinite s then BitVec.ofInt 32 (Rc0.sat32 (Rc0.fixedInt s))
  else if F32.isNaN s then 0#32
  else if F32.sign s then 0x80000000#32
  else 0x7FFFFFFF#32

/-- RC0 (R225). `sawIdx`, `sqrIdx`, `blSaw`, `blSqr` are "left abstract", and so are the draws: they are
arguments. -/
def Rc0.cfg (sawIdx sqrIdx : BitVec 9 → Num32) (blSaw blSqr : Num32 → Num32 → Num32) (noise : Nat → Num32) :
    Cfg where
  sampleRate := 0x473B8000#32
  srRecip := 0x37AEC33E#32
  fMax := 0x46B8FF49#32
  noteModScale := 0x3B808081#32
  ditherScale := 0x3727C5AC#32
  paramScale := 0x3A802008#32
  noteHz := Rc0.noteHz
  sawIdx := sawIdx
  sqrIdx := sqrIdx
  blSaw := blSaw
  blSqr := blSqr
  softClip := Rc0.softClip
  lerp := Rc0.lerp
  clipMax := Rc0.clipMax
  clip01 := Rc0.clip01
  paramToFloat := Rc0.paramToFloat 0x3A802008#32
  toFixed := Rc0.toFixed
  noise := noise

end Sys2Proof.Machine
end

