-- ==== Sys2Proof/Safety.lean ====
section
/-! DEFINITION. What claims are stated in: the reset registers, the invariants, what an operation may
write, the closed form of a `SYNTH`. Nothing here is used by the machine. -/

namespace Sys2Proof.Machine

/-- Every engine register at its value of the table of 10_state.md R39. -/
def State.registersZero (s : State) : Prop :=
  s.mode = .poly ∧ s.driveAmount = 0#32 ∧ s.detuneAmount = 0#32 ∧ s.voiceCount = 0#3 ∧
  s.nextSlot = 0#2 ∧ s.lastNoteSeen = 0#8 ∧
  ∀ i : Fin 4, (s.voice i).note = 0#9 ∧ (s.voice i).wti = 0#32 ∧ (s.voice i).phase = 0#32 ∧
    (s.voice i).inc = 0#32

/-- The invariants of 10_state.md R40 on the values a register's type does not already bound:
`voiceCount <= 4`, `0 <= driveAmount <= 1`, every `note <= 267`. -/
def State.registersLegal (s : State) : Prop :=
  s.voiceCount.toNat ≤ 4 ∧ F32.inUnit s.driveAmount = true ∧
  ∀ i : Fin 4, (s.voice i).note.toNat ≤ 267

/-- "`voiceCount < 4` implies `nextSlot = voiceCount`" (41_allocator.md R113 g). -/
def State.cursorFollows (s : State) : Prop :=
  s.voiceCount.toNat < 4 → s.nextSlot.toNat = s.voiceCount.toNat

/-- The ports between operations: `cmd_ready` = 1, `smp_valid` = 0 (20_memory.md R52, R59). -/
def State.portsIdle (s : State) : Prop := s.cmdReady = true ∧ s.smpValid = false

/-- The engine is ready, the host's next command word is `w` and `rest` are the words after it: the next
step transfers `w` (20_memory.md R52). -/
def State.offered (s : State) (w : CmdWord) (rest : List CmdWord) : Prop :=
  s.cmdReady = true ∧ s.cmds = w :: rest

/-- The invariant of the machine between operations. -/
def State.Inv (s : State) : Prop := s.registersLegal ∧ s.cursorFollows ∧ s.portsIdle

/-- Every phase in [0, 1) (10_state.md R31). -/
def State.phasesInRange (s : State) : Prop :=
  ∀ i : Fin 4, F32.inPhaseRange (s.voice i).phase = true

/-- Slot `i` is active: `i < voiceCount` (00_scope.md R19). -/
def State.isActive (s : State) (i : Fin 4) : Prop := i.val < s.voiceCount.toNat

/-- `V[i].wti = idx(kind(mode), V[i].note)`, the relation of 10_state.md R41. -/
def State.indexFresh (c : Cfg) (s : State) (i : Fin 4) : Prop :=
  (s.voice i).wti = tableIndex c (waveKind s.mode) (s.voice i).note

/-- The engine registers of `s` and `t` agree (the record `S` of 10_state.md R20). -/
def State.sameRegisters (s t : State) : Prop :=
  s.mode = t.mode ∧ s.driveAmount = t.driveAmount ∧ s.detuneAmount = t.detuneAmount ∧
  s.voiceCount = t.voiceCount ∧ s.nextSlot = t.nextSlot ∧ s.lastNoteSeen = t.lastNoteSeen ∧
  s.voices = t.voices

/-- `s` and `t` agree on everything but the engine registers: the ports, the words still to be issued, the
words emitted, the draws taken. -/
def State.sameOutside (s t : State) : Prop :=
  s.cmdReady = t.cmdReady ∧ s.smpValid = t.smpValid ∧ s.cmds = t.cmds ∧ s.smp = t.smp ∧
  s.draws = t.draws

/-- The phase of a voice after `k` frames: `k` times `PHADV` (43_phase_waveform.md R156). -/
def phaseAfter (v : Voice) : Nat → Num32
  | 0 => v.phase
  | k + 1 =>
      F32.sub (F32.add (phaseAfter v k) v.inc) (F32.floor (F32.add (phaseAfter v k) v.inc))

/-- The mix of frame `k` counted from state `s`, from the phases of that frame alone: the weighted sum of
43_phase_waveform.md R152 (weight 0.25) or the product of R154 (seed 0.9) over the active slots in
ascending order. -/
def mixAt (c : Cfg) (s : State) (k : Nat) : Num32 :=
  match combination s.mode with
  | .additive => s.activeSlots.foldl (fun sig i =>
      F32.add sig (F32.mul 0x3E800000#32
        (c.blSaw (phaseAfter (s.voice i) k) (s.voice i).wti))) F32.zero
  | .ring => s.activeSlots.foldl (fun sig i =>
      F32.mul sig (c.blSqr (phaseAfter (s.voice i) k) (s.voice i).wti)) 0x3F666666#32

/-- The operation is a `SYNTH`. -/
def isSynth : Instr → Bool
  | .synth _ _ _ => true
  | .init _ _ => false
  | .noteOn _ => false
  | .noteOff _ => false
  | .setpMode _ => false
  | .setpDrive _ => false
  | .setpDetune _ => false
  | .setpAux _ => false

/-- The engine registers the access table of 10_state.md R34 distinguishes, the voice file as one. -/
inductive Register where
  | mode
  | driveAmount
  | detuneAmount
  | voiceCount
  | nextSlot
  | lastNoteSeen
  | voices
deriving DecidableEq, Repr

/-- The "written by" column of 10_state.md R34 (and the list of 45_lifecycle.md R197). -/
def mayWrite : Instr → Register → Bool
  | .init _ _, _ => true
  | .synth _ _ _, .mode => false
  | .synth _ _ _, .driveAmount => false
  | .synth _ _ _, .detuneAmount => false
  | .synth _ _ _, .voiceCount => true
  | .synth _ _ _, .nextSlot => true
  | .synth _ _ _, .lastNoteSeen => true
  | .synth _ _ _, .voices => true
  | .noteOn _, r => decide (r = .voiceCount) || decide (r = .nextSlot)
  | .noteOff _, _ => false
  | .setpMode _, r => decide (r = .mode)
  | .setpDrive _, r => decide (r = .driveAmount)
  | .setpDetune _, r => decide (r = .detuneAmount)
  | .setpAux _, _ => false

/-- `s` and `t` hold the same value in register `r`. -/
def State.agreeOn (s t : State) : Register → Prop
  | .mode => s.mode = t.mode
  | .driveAmount => s.driveAmount = t.driveAmount
  | .detuneAmount => s.detuneAmount = t.detuneAmount
  | .voiceCount => s.voiceCount = t.voiceCount
  | .nextSlot => s.nextSlot = t.nextSlot
  | .lastNoteSeen => s.lastNoteSeen = t.lastNoteSeen
  | .voices => s.voices = t.voices

/-- The mask and match columns of 30_encoding.md R81, in the order of its table. -/
def opcodeRows : List (CmdWord × CmdWord) :=
  [(0xF0000000#32, 0x00000000#32), (0xF0000000#32, 0x10000000#32),
   (0xF0000000#32, 0x20000000#32), (0xF0000000#32, 0x30000000#32),
   (0xFFFF0000#32, 0x40000000#32), (0xFFFF0000#32, 0x40010000#32),
   (0xFFFF0000#32, 0x40020000#32), (0xFFFF0000#32, 0x40030000#32)]

/-- How many sample words a command word makes the engine emit (20_memory.md R54). -/
def wordsOf (w : CmdWord) : Nat :=
  match decode w with
  | .operation (.synth _ _ frames) => frames.toNat
  | .operation _ => 0
  | .reserved _ => 0

/-- `x` as a multiple of 2^-23, the grid on which the phase accumulator is exact (43_phase_waveform.md
R158). -/
def F32.onPhaseGrid (x : Num32) : Prop := F32.isFinite x = true ∧ F32.units x % 2 ^ 126 = 0

end Sys2Proof.Machine
end

