-- ==== Sys2Proof/Certificates/Slice0/Obligations.lean ====
section
/-! DEFINITION. The statements for the provers. Each says in its docstring which rule of the spec it
formalises. -/

open Sys2Proof Sys2Proof.Machine

/-! ## Encoding (30_encoding.md) -/

/-- Decoding the word of an operation gives the operation back, every operand at every value
(30_encoding.md R74 to R78, R83). -/
def Obligations.DecodeInvertsEncode : Prop :=
  ∀ i : Instr, decode (encode i) = .operation i

/-- Each word that is an operation is the word of that operation: no bit is dropped, no two words are one
operation (30_encoding.md R74 to R79, R83). -/
def Obligations.EncodeInvertsDecode : Prop :=
  ∀ (w : CmdWord) (i : Instr), decode w = .operation i → encode i = w

/-- The opcode map of 30_encoding.md R81: a word selects a row by its mask and match, the rows are
disjoint, the fields stand where the patterns have them, and a word no row matches is reserved (R83). -/
def Obligations.OpcodeMapSelectsOperation : Prop :=
  ∀ w : CmdWord,
    (w &&& 0xF0000000#32 = 0x00000000#32 →
      decode w = .operation (.init (w.extractLsb' 16 12) (w.extractLsb' 0 16))) ∧
    (w &&& 0xF0000000#32 = 0x10000000#32 →
      decode w = .operation
        (.synth (w.extractLsb' 8 8) (w.extractLsb' 0 8) (w.extractLsb' 16 12))) ∧
    (w &&& 0xF0000000#32 = 0x20000000#32 → decode w = .operation (.noteOn (w.extractLsb' 0 28))) ∧
    (w &&& 0xF0000000#32 = 0x30000000#32 → decode w = .operation (.noteOff (w.extractLsb' 0 28))) ∧
    (w &&& 0xFFFF0000#32 = 0x40000000#32 → decode w = .operation (.setpMode (w.extractLsb' 0 16))) ∧
    (w &&& 0xFFFF0000#32 = 0x40010000#32 →
      decode w = .operation (.setpDrive (w.extractLsb' 0 16))) ∧
    (w &&& 0xFFFF0000#32 = 0x40020000#32 →
      decode w = .operation (.setpDetune (w.extractLsb' 0 16))) ∧
    (w &&& 0xFFFF0000#32 = 0x40030000#32 → decode w = .operation (.setpAux (w.extractLsb' 0 16))) ∧
    ((∀ r ∈ opcodeRows, w &&& r.1 ≠ r.2) → ∃ why, decode w = .reserved why) ∧
    opcodeRows.Pairwise (fun a b => ¬ (w &&& a.1 = a.2 ∧ w &&& b.1 = b.2))

/-- Exactly the words of 30_encoding.md R82 are reserved, and the engine accepts one, changes no state and
emits nothing. -/
def Obligations.ReservedWordsAreIgnored : Prop :=
  ∀ w : CmdWord,
    ((∃ why, decode w = .reserved why) ↔
      5 ≤ (w.extractLsb' 28 4).toNat ∨
      ((w.extractLsb' 28 4).toNat = 4 ∧ w.extractLsb' 24 4 ≠ 0#4) ∨
      ((w.extractLsb' 28 4).toNat = 4 ∧ w.extractLsb' 24 4 = 0#4 ∧
        4 ≤ (w.extractLsb' 16 8).toNat)) ∧
    ∀ (s : State) (rest : List CmdWord), s.offered w rest →
      (∃ why, decode w = .reserved why) → step s = .next { s with cmds := rest }

/-- The worked encodings of 30_encoding.md R86: what each line assembles to, what the words decode to, and
the reserved examples. -/
def Obligations.WorkedEncodings : Prop :=
  (Asm.init 0 0).assemble = some 0x00000000#32 ∧
  (Asm.init 1 0x0101).assemble = some 0x00010101#32 ∧
  (Asm.synth 60 0 64).assemble = some 0x10403C00#32 ∧
  (Asm.synth 64 128 8).assemble = some 0x10084080#32 ∧
  (Asm.synthp 0x3C80 16).assemble = some 0x10103C80#32 ∧
  (Asm.synth 60 128 16).assemble = some 0x10103C80#32 ∧
  (Asm.noteOn 0).assemble = some 0x20000000#32 ∧
  (Asm.noteOff 0).assemble = some 0x30000000#32 ∧
  (Asm.setpModeName .poly).assemble = some 0x40000000#32 ∧
  (Asm.setpModeName .polyRing).assemble = some 0x40000005#32 ∧
  (Asm.setpDrive 768).assemble = some 0x40010300#32 ∧
  (Asm.setpDetune 128).assemble = some 0x40020080#32 ∧
  (Asm.setpAux 0xFFFF).assemble = some 0x4003FFFF#32 ∧
  decode 0x00010101#32 = .operation (.init 1#12 0x0101#16) ∧
  decode 0x10403C00#32 = .operation (.synth 60#8 0#8 64#12) ∧
  decode 0x20000000#32 = .operation (.noteOn 0#28) ∧
  decode 0x30000000#32 = .operation (.noteOff 0#28) ∧
  decode 0x40000005#32 = .operation (.setpMode 5#16) ∧
  decode 0x40010300#32 = .operation (.setpDrive 768#16) ∧
  decode 0x40020080#32 = .operation (.setpDetune 128#16) ∧
  decode 0x4003FFFF#32 = .operation (.setpAux 0xFFFF#16) ∧
  decode 0x50000000#32 = .reserved (.op 5#4) ∧
  decode 0x41000000#32 = .reserved (.rsv 1#4) ∧
  decode 0x40040000#32 = .reserved (.pid 4#8) ∧
  decode 0xFFFFFFFF#32 = .reserved (.op 15#4)

/-- The assembler (30_encoding.md R84, R85): a line with an operand out of the range of its table row has no
word, a line with operands in range has a word that carries exactly those operands, and `NOP` is
`NOTEOFF 0`. -/
def Obligations.AssemblerKeepsOperands : Prop :=
  (∀ plat api : Nat, 4095 < plat ∨ 65535 < api → (Asm.init plat api).assemble = none) ∧
  (∀ note mod frames : Nat, 255 < note ∨ 255 < mod ∨ 4095 < frames →
    (Asm.synth note mod frames).assemble = none) ∧
  (∀ pitch frames : Nat, 65535 < pitch ∨ 4095 < frames →
    (Asm.synthp pitch frames).assemble = none) ∧
  (∀ np : Nat, 0x0FFFFFFF < np →
    (Asm.noteOn np).assemble = none ∧ (Asm.noteOff np).assemble = none) ∧
  (∀ v : Nat, 65535 < v →
    (Asm.setpMode v).assemble = none ∧ (Asm.setpDrive v).assemble = none ∧
    (Asm.setpDetune v).assemble = none ∧ (Asm.setpAux v).assemble = none) ∧
  (∀ v : Nat, 0xFFFFFFFF < v → (Asm.word v).assemble = none) ∧
  (∀ plat api : Nat, plat ≤ 4095 → api ≤ 65535 → ∃ w p q, (Asm.init plat api).assemble = some w ∧
    decode w = .operation (.init p q) ∧ p.toNat = plat ∧ q.toNat = api) ∧
  (∀ note mod frames : Nat, note ≤ 255 → mod ≤ 255 → frames ≤ 4095 →
    ∃ w n m f, (Asm.synth note mod frames).assemble = some w ∧
      decode w = .operation (.synth n m f) ∧ n.toNat = note ∧ m.toNat = mod ∧ f.toNat = frames) ∧
  (∀ pitch frames : Nat, pitch ≤ 65535 → frames ≤ 4095 →
    ∃ w n m f, (Asm.synthp pitch frames).assemble = some w ∧
      decode w = .operation (.synth n m f) ∧ n.toNat = pitch / 256 ∧ m.toNat = pitch % 256 ∧
      f.toNat = frames) ∧
  (∀ np : Nat, np ≤ 0x0FFFFFFF → ∃ w q, (Asm.noteOn np).assemble = some w ∧
    decode w = .operation (.noteOn q) ∧ q.toNat = np) ∧
  (∀ np : Nat, np ≤ 0x0FFFFFFF → ∃ w q, (Asm.noteOff np).assemble = some w ∧
    decode w = .operation (.noteOff q) ∧ q.toNat = np) ∧
  (∀ v : Nat, v ≤ 65535 → ∃ w u, (Asm.setpMode v).assemble = some w ∧
    decode w = .operation (.setpMode u) ∧ u.toNat = v) ∧
  (∀ m : Mode, ∃ w u, (Asm.setpModeName m).assemble = some w ∧
    decode w = .operation (.setpMode u) ∧ modeOfValue u = some m) ∧
  (∀ v : Nat, v ≤ 65535 → ∃ w u, (Asm.setpDrive v).assemble = some w ∧
    decode w = .operation (.setpDrive u) ∧ u.toNat = v) ∧
  (∀ v : Nat, v ≤ 65535 → ∃ w u, (Asm.setpDetune v).assemble = some w ∧
    decode w = .operation (.setpDetune u) ∧ u.toNat = v) ∧
  (∀ v : Nat, v ≤ 65535 → ∃ w u, (Asm.setpAux v).assemble = some w ∧
    decode w = .operation (.setpAux u) ∧ u.toNat = v) ∧
  (∀ v : Nat, v ≤ 0xFFFFFFFF → ∃ w, (Asm.word v).assemble = some w ∧ w.toNat = v) ∧
  Asm.nop.assemble = (Asm.noteOff 0).assemble ∧
  (∃ w, Asm.nop.assemble = some w ∧ decode w = .operation (.noteOff 0#28))

/-! ## One step (20_memory.md R52, R54, R60) -/

/-- A step runs the operation the next command word decodes to: `exec` of it, between the transfer of the
word (which takes `cmd_ready` to 0) and the completion (which takes it back to 1) (20_memory.md R52). -/
def Obligations.StepRunsDecodedOperation : Prop :=
  ∀ (s : State) (w : CmdWord) (rest : List CmdWord) (i : Instr),
    s.offered w rest → decode w = .operation i →
    step s =
      match exec i { s with cmds := rest, cmdReady := false } with
      | .next t => .next { t with cmdReady := true }
      | .fault r => .fault r
      | .refused r => .refused r

/-- Where no word can be transferred, because the host has none or `cmd_ready` is 0, the engine keeps all
state (60_exceptions.md R255, 20_memory.md R52). -/
def Obligations.IdleStepKeepsState : Prop :=
  ∀ s : State, s.cmds = [] ∨ s.cmdReady = false → step s = .next s

/-- Every step answers a next state, whatever the state: there is no fault and no refusal
(60_exceptions.md R247). -/
def Obligations.StepIsTotal : Prop := ∀ s : State, ∃ t, step s = .next t

/-- A ready engine takes the first command word, leaves the others in their order, is ready again, and
emits exactly as many words as the operation has frames, after all earlier ones (20_memory.md R52, R54,
R60). -/
def Obligations.StepTakesOneCommand : Prop :=
  ∀ (s : State) (w : CmdWord) (rest : List CmdWord), s.offered w rest →
    ∃ t beats, step s = .next t ∧ t.cmds = rest ∧ t.cmdReady = true ∧ t.smp = s.smp ++ beats ∧
      beats.length = wordsOf w

/-! ## Reset and the lifecycle operations (45_lifecycle.md) -/

/-- The reset values (10_state.md R39), after hardware reset and after every `INIT`. -/
def Obligations.ResetAndInitValues : Prop :=
  State.reset.registersZero ∧
  ∀ (s : State) (plat : BitVec 12) (api : BitVec 16),
    ∃ t, exec (.init plat api) s = .next t ∧ t.registersZero

/-- Reset leaves `cmd_ready` = 1 and `smp_valid` = 0 (20_memory.md R59) and satisfies the invariant of the
machine (10_state.md R40, 41_allocator.md R113 g). -/
def Obligations.ResetMeetsInvariant : Prop :=
  State.reset.cmdReady = true ∧ State.reset.smpValid = false ∧ State.reset.Inv

/-- `INIT` writes every register, whatever the state and the operands, and nothing else; so does a step on
every word of its row (45_lifecycle.md R186). -/
def Obligations.InitZeroesRegistersOnly : Prop :=
  (∀ (s : State) (plat : BitVec 12) (api : BitVec 16),
    ∃ t, exec (.init plat api) s = .next t ∧ t.registersZero ∧ t.sameOutside s) ∧
  ∀ (s : State) (w : CmdWord) (rest : List CmdWord), s.offered w rest →
    w &&& 0xF0000000#32 = 0x00000000#32 →
    ∃ t, step s = .next t ∧ t.registersZero ∧ t.sameOutside { s with cmds := rest }

/-- `NOTEON` writes `voiceCount` and `nextSlot` and nothing else: no phase is written and no draw is taken
(45_lifecycle.md R187, R188). The second part says it of a step on every word of its row. -/
def Obligations.NoteOnDeactivatesVoices : Prop :=
  (∀ (s : State) (np : BitVec 28),
    exec (.noteOn np) s = .next { s with voiceCount := 0#3, nextSlot := 0#2 }) ∧
  ∀ (s : State) (w : CmdWord) (rest : List CmdWord), s.offered w rest →
    w &&& 0xF0000000#32 = 0x20000000#32 →
    step s = .next { s with cmds := rest, voiceCount := 0#3, nextSlot := 0#2 }

/-- `NOTEOFF` changes nothing, and a step on every word of its row only takes the word
(45_lifecycle.md R190). -/
def Obligations.NoteOffChangesNothing : Prop :=
  (∀ (s : State) (np : BitVec 28), exec (.noteOff np) s = .next s) ∧
  ∀ (s : State) (w : CmdWord) (rest : List CmdWord), s.offered w rest →
    w &&& 0xF0000000#32 = 0x30000000#32 → step s = .next { s with cmds := rest }

/-- `SETP.MODE` with a value up to 5 writes the mode of that number and nothing else; a larger value
changes nothing (45_lifecycle.md R193). The second part says it of a step on every word of its row. -/
def Obligations.SetpModeWritesNamedMode : Prop :=
  (∀ (s : State) (v : BitVec 16),
    (v.toNat ≤ 5 → ∃ m : Mode, m.number = v.toNat ∧
      exec (.setpMode v) s = .next { s with mode := m }) ∧
    (5 < v.toNat → exec (.setpMode v) s = .next s)) ∧
  ∀ (s : State) (w : CmdWord) (rest : List CmdWord), s.offered w rest →
    w &&& 0xFFFF0000#32 = 0x40000000#32 →
    ((w.extractLsb' 0 16).toNat ≤ 5 → ∃ m : Mode, m.number = (w.extractLsb' 0 16).toNat ∧
      step s = .next { s with cmds := rest, mode := m }) ∧
    (5 < (w.extractLsb' 0 16).toNat → step s = .next { s with cmds := rest })

/-- `SETP.DRIVE` writes `driveAmount` only, with the product `num(value) * PARAM_SCALE` clamped to [0, 1];
so does a step on every word of its row. For every configuration made to keep the rules (`Cfg.conform`), of
which the machine's is one: `num(value)` is exact, the result is in [0, 1], +0.0 for value 0, 1.0 where the
product is 1 or more. Between 0 and 1 the primitive's own value is written, which with the default clip
(46_primitives.md R219) is the product (45_lifecycle.md R194). -/
def Obligations.SetpDriveClampsProduct : Prop :=
  (∀ (s : State) (v : BitVec 16),
    exec (.setpDrive v) s = .next { s with driveAmount := driveOfValue Config.cfg v }) ∧
  (∀ (s : State) (w : CmdWord) (rest : List CmdWord), s.offered w rest →
    w &&& 0xFFFF0000#32 = 0x40010000#32 →
    step s = .next
      { s with cmds := rest, driveAmount := driveOfValue Config.cfg (w.extractLsb' 0 16) }) ∧
  ∀ (c : Cfg) (v : BitVec 16),
    F32.units (F32.ofNat v.toNat) = v.toNat * 2 ^ 149 ∧
    F32.inUnit (driveOfValue c.conform v) = true ∧
    (v = 0#16 → driveOfValue c.conform v = 0#32) ∧
    (2 ^ 149 ≤ F32.units (F32.mul (F32.ofNat v.toNat) c.conform.paramScale) →
      driveOfValue c.conform v = F32.one) ∧
    (0 < F32.units (F32.mul (F32.ofNat v.toNat) c.conform.paramScale) →
      F32.units (F32.mul (F32.ofNat v.toNat) c.conform.paramScale) < 2 ^ 149 →
      F32.inUnit (c.clip01 (F32.mul (F32.ofNat v.toNat) c.conform.paramScale)) = true →
      driveOfValue c.conform v = c.clip01 (F32.mul (F32.ofNat v.toNat) c.conform.paramScale)) ∧
    (c.clip01 = Rc0.clip01 →
      F32.units (F32.mul (F32.ofNat v.toNat) c.conform.paramScale) < 2 ^ 149 →
      driveOfValue c.conform v = F32.mul (F32.ofNat v.toNat) c.conform.paramScale)

/-- `SETP.DETUNE` writes `detuneAmount` only, with `paramToFloat(value)`, not clamped
(45_lifecycle.md R195). The second part says it of a step on every word of its row. -/
def Obligations.SetpDetuneStoresMappedValue : Prop :=
  (∀ (s : State) (v : BitVec 16),
    exec (.setpDetune v) s = .next { s with detuneAmount := Config.paramToFloat v }) ∧
  ∀ (s : State) (w : CmdWord) (rest : List CmdWord), s.offered w rest →
    w &&& 0xFFFF0000#32 = 0x40020000#32 →
    step s = .next
      { s with cmds := rest, detuneAmount := Config.paramToFloat (w.extractLsb' 0 16) }

/-- `SETP.AUX` has no effect, for every value, and a step on every word of its row only takes the word
(45_lifecycle.md R196). -/
def Obligations.SetpAuxHasNoEffect : Prop :=
  (∀ (s : State) (v : BitVec 16), exec (.setpAux v) s = .next s) ∧
  ∀ (s : State) (w : CmdWord) (rest : List CmdWord), s.offered w rest →
    w &&& 0xFFFF0000#32 = 0x40030000#32 → step s = .next { s with cmds := rest }

/-- Every operation but `SYNTH` runs, emits nothing, takes no draw, leaves the ports, and issued twice in
a row leaves the state issued once leaves (20_memory.md R58, R54; 42_resolver.md R136). -/
def Obligations.LifecycleIsSilentAndIdempotent : Prop :=
  ∀ (i : Instr) (s : State), isSynth i = false →
    ∃ t, exec i s = .next t ∧ t.sameOutside s ∧ exec i t = .next t

/-- No operation writes a register outside the "written by" column of 10_state.md R34 (45_lifecycle.md
R197), and every operation runs. -/
def Obligations.OnlyListedWritersWrite : Prop :=
  ∀ (i : Instr) (s : State),
    ∃ t, exec i s = .next t ∧ ∀ r : Register, mayWrite i r = false → s.agreeOn t r

/-! ## SYNTH: shape, frame, allocation, resolution (40_synth.md, 41_allocator.md, 42_resolver.md) -/

/-- `SYNTH` from every state in every mode emits exactly `frameCount` words, after the earlier ones, and
does not fail (60_exceptions.md R242). -/
def Obligations.SynthEmitsFrameCount : Prop :=
  ∀ (s : State) (note mod : BitVec 8) (frames : BitVec 12),
    ∃ t beats, exec (.synth note mod frames) s = .next t ∧ t.smp = s.smp ++ beats ∧
      beats.length = frames.toNat

/-- What `SYNTH` leaves: `mode`, `driveAmount`, `detuneAmount`, the words still to be issued, `cmd_ready`;
`lastNoteSeen` outside the Poly family; the phase and increment of every slot not active after it; and
`smp_valid` is 0 at its end (40_synth.md R100; 10_state.md R27, R32, R31; for `smp_valid`, log entry 9). -/
def Obligations.SynthFrame : Prop :=
  ∀ (s : State) (note mod : BitVec 8) (frames : BitVec 12),
    ∃ t, exec (.synth note mod frames) s = .next t ∧
      t.mode = s.mode ∧ t.driveAmount = s.driveAmount ∧ t.detuneAmount = s.detuneAmount ∧
      t.cmds = s.cmds ∧ t.cmdReady = s.cmdReady ∧ t.smpValid = false ∧
      (s.mode ≠ .poly → s.mode ≠ .polyRing → t.lastNoteSeen = s.lastNoteSeen) ∧
      ∀ i : Fin 4, t.voiceCount.toNat ≤ i.val →
        (t.voice i).phase = (s.voice i).phase ∧ (t.voice i).inc = (s.voice i).inc

/-- Under the invariant of 41_allocator.md R113 g, a slot that is not active after a `SYNTH` keeps all four
fields (10_state.md R33). -/
def Obligations.InactiveSlotsAreKept : Prop :=
  ∀ (s : State) (note mod : BitVec 8) (frames : BitVec 12),
    s.voiceCount.toNat ≤ 4 → s.cursorFollows →
    ∃ t, exec (.synth note mod frames) s = .next t ∧
      ∀ i : Fin 4, t.voiceCount.toNat ≤ i.val → t.voice i = s.voice i

/-- `SYNTH` with no frames runs the control update and its draws, emits nothing and moves no phase
(40_synth.md R105). -/
def Obligations.SynthOfNoFrames : Prop :=
  ∀ (s : State) (note mod : BitVec 8),
    ∃ t, exec (.synth note mod 0#12) s = .next t ∧ t.smp = s.smp ∧
      (∀ i : Fin 4, (t.voice i).phase = (s.voice i).phase) ∧
      t.sameRegisters (controlUpdate Config.cfg note mod s) ∧
      t.draws = (controlUpdate Config.cfg note mod s).draws

/-- `ALLOC.POLY` as `SYNTH` runs it (41_allocator.md R112): with no voice or a new note, slot `nextSlot`
gets the note and its table index of the mode's kind, the cursor advances modulo 4, the count grows up to 4,
the note is remembered; otherwise nothing of that changes. -/
def Obligations.PolyAllocation : Prop :=
  ∀ (s : State) (note mod : BitVec 8) (frames : BitVec 12),
    s.mode = .poly ∨ s.mode = .polyRing →
    ∃ t, exec (.synth note mod frames) s = .next t ∧
      if s.voiceCount = 0#3 ∨ note ≠ s.lastNoteSeen then
        (t.voice s.nextSlot.toFin).note = note.zeroExtend 9 ∧
        (t.voice s.nextSlot.toFin).wti =
          (if s.mode = .poly then Config.sawIdx (note.zeroExtend 9)
            else Config.sqrIdx (note.zeroExtend 9)) ∧
        (∀ j : Fin 4, j ≠ s.nextSlot.toFin →
          (t.voice j).note = (s.voice j).note ∧ (t.voice j).wti = (s.voice j).wti) ∧
        t.nextSlot.toNat = (s.nextSlot.toNat + 1) % 4 ∧
        t.voiceCount.toNat = min (s.voiceCount.toNat + 1) 4 ∧ t.lastNoteSeen = note
      else
        (∀ j : Fin 4, (t.voice j).note = (s.voice j).note ∧ (t.voice j).wti = (s.voice j).wti) ∧
        t.nextSlot = s.nextSlot ∧ t.voiceCount = s.voiceCount ∧ t.lastNoteSeen = s.lastNoteSeen

/-- `ALLOC.PAIR` as `SYNTH` runs it, whatever the state before: the four slots hold N, N + 12 (Octave) or
N + 7 (Fifth), N, that again, without wrap, each with its own sawtooth index (41_allocator.md R114). -/
def Obligations.PairAllocation : Prop :=
  ∀ (s : State) (note mod : BitVec 8) (frames : BitVec 12),
    s.mode = .octave ∨ s.mode = .fifth →
    ∃ t, exec (.synth note mod frames) s = .next t ∧
      (∀ i : Fin 4,
        (t.voice i).note.toNat =
          note.toNat + (if i.val % 2 = 0 then 0 else if s.mode = .octave then 12 else 7) ∧
        (t.voice i).wti = Config.sawIdx (t.voice i).note) ∧
      t.voiceCount = 4#3 ∧ t.nextSlot = 0#2 ∧ t.lastNoteSeen = s.lastNoteSeen

/-- `ALLOC.UNI` as `SYNTH` runs it: the four slots hold the note with the sawtooth (Unison) or square
(UnisonRing) index (41_allocator.md R116). -/
def Obligations.UnisonAllocation : Prop :=
  ∀ (s : State) (note mod : BitVec 8) (frames : BitVec 12),
    s.mode = .unison ∨ s.mode = .unisonRing →
    ∃ t, exec (.synth note mod frames) s = .next t ∧
      (∀ i : Fin 4, (t.voice i).note.toNat = note.toNat ∧
        (t.voice i).wti =
          (if s.mode = .unison then Config.sawIdx (t.voice i).note
            else Config.sqrIdx (t.voice i).note)) ∧
      t.voiceCount = 4#3 ∧ t.nextSlot = 0#2 ∧ t.lastNoteSeen = s.lastNoteSeen

/-- After any `SYNTH` in a full-reset mode every slot's table index is that of its note and the mode's kind
(10_state.md R41). -/
def Obligations.FullResetHealsTableIndex : Prop :=
  ∀ (s : State) (note mod : BitVec 8) (frames : BitVec 12),
    s.mode = .unison ∨ s.mode = .octave ∨ s.mode = .fifth ∨ s.mode = .unisonRing →
    ∃ t, exec (.synth note mod frames) s = .next t ∧ ∀ i : Fin 4, t.indexFresh Config.cfg i

/-- After a `NOTEON` the next `SYNTH` of the Poly family allocates slot 0 with a fresh table index, also for
the note seen last (41_allocator.md R113 c; 70_reset_and_hazards.md R276). -/
def Obligations.NoteOnForcesAllocation : Prop :=
  ∀ (s : State) (np : BitVec 28) (note mod : BitVec 8) (frames : BitVec 12),
    s.mode = .poly ∨ s.mode = .polyRing →
    ∃ t u, exec (.noteOn np) s = .next t ∧ exec (.synth note mod frames) t = .next u ∧
      u.voiceCount = 1#3 ∧ u.nextSlot = 1#2 ∧ u.lastNoteSeen = note ∧
      (u.voice 0).note = note.zeroExtend 9 ∧ u.indexFresh Config.cfg 0

/-- `RESOLVE` as `SYNTH` runs it (42_resolver.md R130, R136): every active slot `i` gets the increment of
its note, the modulation byte, the detune amount (changed in sign below the midpoint) and draw number `i` of
the operation; the others keep theirs; one draw per active voice is taken. What the clip does is stated by
`Obligations.FrequencyIsClippedFromAboveOnly`. -/
def Obligations.ResolveSetsIncrements : Prop :=
  ∀ (s : State) (note mod : BitVec 8) (frames : BitVec 12),
    ∃ t, exec (.synth note mod frames) s = .next t ∧
      t.draws = s.draws + min t.voiceCount.toNat 4 ∧
      ∀ i : Fin 4,
        if i.val < t.voiceCount.toNat then
          (t.voice i).inc =
            F32.add
              (F32.mul
                (Config.cfg.clipMax
                  (Config.lerp
                    (F32.add (F32.mul (F32.ofNat mod.toNat) Config.noteModScale)
                      (if i.val < 2 then F32.neg s.detuneAmount else s.detuneAmount))
                    (Config.noteHz (t.voice i).note) (Config.noteHz ((t.voice i).note + 1#9)))
                  Config.fMax)
                Config.srRecip)
              (F32.mul Config.ditherScale (Config.cfg.noise (s.draws + i.val)))
        else (t.voice i).inc = (s.voice i).inc

/-- Under every configuration, two active voices of one half of the slots with one note differ in increment
only through their draws: equal draws, equal increments (42_resolver.md R137 b). -/
def Obligations.HalfMatesDifferByDitherOnly : Prop :=
  ∀ (c : Cfg) (s : State) (note mod : BitVec 8) (frames : BitVec 12) (i j : Fin 4),
    (synth c note mod frames s).isActive i → (synth c note mod frames s).isActive j →
    (i.val < 2 ↔ j.val < 2) →
    ((synth c note mod frames s).voice i).note = ((synth c note mod frames s).voice j).note →
    c.noise (s.draws + i.val) = c.noise (s.draws + j.val) →
    ((synth c note mod frames s).voice i).inc = ((synth c note mod frames s).voice j).inc

/-! ## SYNTH: the frames (40_synth.md R104, 43_phase_waveform.md, 44_drive_output.md) -/

/-- `SYNTH` in closed form. After the control update, word `k` is `toFixed` of the drive formula of
44_drive_output.md R170, `(g * softClip(c, mix)) + ((1 - d) * mix)` with `d` the drive amount, `c = d / 3`,
`g = d / (1 - c)`, at the mix of the active voices at their phases after `k` advances; the last word carries
`smp_last`; the phase of each active slot has advanced `frameCount` times; every other register and the
draws are as the control update left them. That `smp_valid` is 0 in the state after the operation rests on
the model's one-step reading, log entry 9. -/
def Obligations.SynthClosedForm : Prop :=
  ∀ (s : State) (note mod : BitVec 8) (frames : BitVec 12),
    ∃ t, exec (.synth note mod frames) s = .next t ∧
      t.smp = s.smp ++ (List.range frames.toNat).map (fun k =>
        { data := Config.cfg.toFixed
            (F32.add
              (F32.mul
                (F32.div s.driveAmount
                  (F32.sub 0x3F800000#32 (F32.div s.driveAmount 0x40400000#32)))
                (Config.cfg.softClip (F32.div s.driveAmount 0x40400000#32)
                  (mixAt Config.cfg (controlUpdate Config.cfg note mod s) k)))
              (F32.mul (F32.sub 0x3F800000#32 s.driveAmount)
                (mixAt Config.cfg (controlUpdate Config.cfg note mod s) k)))
          last := decide (k + 1 = frames.toNat) }) ∧
      (∀ i : Fin 4, t.voice i =
        if i.val < (controlUpdate Config.cfg note mod s).voiceCount.toNat then
          { (controlUpdate Config.cfg note mod s).voice i with
            phase :=
              phaseAfter ((controlUpdate Config.cfg note mod s).voice i) frames.toNat }
        else (controlUpdate Config.cfg note mod s).voice i) ∧
      t.voiceCount = (controlUpdate Config.cfg note mod s).voiceCount ∧
      t.nextSlot = (controlUpdate Config.cfg note mod s).nextSlot ∧
      t.lastNoteSeen = (controlUpdate Config.cfg note mod s).lastNoteSeen ∧
      t.draws = (controlUpdate Config.cfg note mod s).draws ∧
      t.mode = s.mode ∧ t.driveAmount = s.driveAmount ∧ t.detuneAmount = s.detuneAmount ∧
      t.cmds = s.cmds ∧ t.cmdReady = s.cmdReady ∧ t.smpValid = false

/-- What a `SYNTH` computes depends on the registers and the draws, not on what was emitted before nor on
what the host will issue (40_synth.md R104, 20_memory.md R58). -/
def Obligations.SynthIgnoresEarlierOutput : Prop :=
  ∀ (s s' : State) (note mod : BitVec 8) (frames : BitVec 12),
    s.sameRegisters s' → s.draws = s'.draws →
    ∃ t t' beats, exec (.synth note mod frames) s = .next t ∧
      exec (.synth note mod frames) s' = .next t' ∧ t.sameRegisters t' ∧ t.draws = t'.draws ∧
      t.smp = s.smp ++ beats ∧ t'.smp = s'.smp ++ beats

/-- The phase accumulator (43_phase_waveform.md R157). A phase in [0, 1), a finite increment and a sum that
is not negative give a phase in [0, 1), the exact fractional part of the rounded sum; an increment in [0, 1)
removes at most one whole unit; a negative sum gives a phase in [0, 1], which can be 1. -/
def Obligations.PhaseWrapIsExact : Prop :=
  (∀ p w : Num32, F32.inPhaseRange p = true → F32.isFinite w = true →
    0 ≤ F32.units (F32.add p w) →
    F32.inPhaseRange (nextPhase p w) = true ∧
      F32.units (nextPhase p w) = F32.units (F32.add p w) % 2 ^ 149) ∧
  (∀ p w : Num32, F32.inPhaseRange p = true → F32.inPhaseRange w = true →
    0 ≤ F32.units (F32.add p w) ∧ F32.units (F32.add p w) < 2 * 2 ^ 149) ∧
  (∀ p w : Num32, F32.inPhaseRange p = true → F32.isFinite w = true →
    F32.units (F32.add p w) < 0 → F32.inUnit (nextPhase p w) = true) ∧
  nextPhase 0#32 0xB0800000#32 = F32.one

/-- On the grid of multiples of 2^-23 the accumulator is exact for any number of frames: the phase after
`k` frames is `(phase0 + k * w) mod 1` (43_phase_waveform.md R158). -/
def Obligations.PhaseAccumulatorExactOnGrid : Prop :=
  ∀ (v : Voice) (k : Nat), F32.inPhaseRange v.phase = true → F32.inPhaseRange v.inc = true →
    F32.onPhaseGrid v.phase → F32.onPhaseGrid v.inc →
    F32.units (phaseAfter v k) = (F32.units v.phase + k * F32.units v.inc) % 2 ^ 149

/-- Under every configuration a `SYNTH` keeps all phases in [0, 1) where the increments it resolved, those of
the active slots, are finite and not negative (10_state.md R40, 43_phase_waveform.md R157). What a slot that
is not active holds plays no part. -/
def Obligations.SynthKeepsPhaseRange : Prop :=
  ∀ (c : Cfg) (s : State) (note mod : BitVec 8) (frames : BitVec 12),
    s.phasesInRange →
    (∀ i : Fin 4, (controlUpdate c note mod s).isActive i →
      F32.isFinite ((controlUpdate c note mod s).voice i).inc = true ∧
      0 ≤ F32.units ((controlUpdate c note mod s).voice i).inc) →
    (synth c note mod frames s).phasesInRange

/-- The additive mix under every configuration: with samples in [-1, 1] the mix is finite and at most a
quarter per active voice (43_phase_waveform.md R153 a, b), and it is +0 without voices (c). -/
def Obligations.AdditiveMixHasHeadroom : Prop :=
  ∀ (c : Cfg) (s : State), combination s.mode = .additive →
    ((∀ i : Fin 4, s.isActive i →
        F32.inSignedUnit (c.blSaw (s.voice i).phase (s.voice i).wti) = true) →
      F32.isFinite (mix c s).1 = true ∧
      F32.magUnits (mix c s).1 * 4 ≤ min s.voiceCount.toNat 4 * 2 ^ 149) ∧
    (s.voiceCount = 0#3 → mix c s = (0#32, s))

/-- The ring mix under every configuration: with samples in [-1, 1] the mix is finite, at most the seed in
magnitude, and a zero whenever one active voice's sample is a zero (43_phase_waveform.md R155 a, d); without
voices it is the seed (c). -/
def Obligations.RingMixIsMultiplicative : Prop :=
  ∀ (c : Cfg) (s : State), combination s.mode = .ring →
    ((∀ i : Fin 4, s.isActive i →
        F32.inSignedUnit (c.blSqr (s.voice i).phase (s.voice i).wti) = true) →
      F32.isFinite (mix c s).1 = true ∧
      F32.magUnits (mix c s).1 ≤ F32.magUnits 0x3F666666#32 ∧
      ((∃ i : Fin 4, s.isActive i ∧
          F32.magUnits (c.blSqr (s.voice i).phase (s.voice i).wti) = 0) →
        F32.magUnits (mix c s).1 = 0)) ∧
    (s.voiceCount = 0#3 → mix c s = (0x3F666666#32, s))

/-- With drive amount 0 the drive stage is the identity on numbers, and on bits but for the sign of a zero,
and the emitted word is that of the mix (44_drive_output.md R172 a, 90_conflicts.md C6). For every
configuration made to keep the rules (`softClip` finite for finite operands, one word for both zeros), and,
for the drive stage alone, for every configuration whose `softClip` result is finite here. -/
def Obligations.DriveAtZeroIsIdentity : Prop :=
  (∀ (c : Cfg) (m : Num32), F32.isFinite m = true →
    F32.units (drive c.conform 0#32 m) = F32.units m ∧
    (F32.magUnits m ≠ 0 → drive c.conform 0#32 m = m) ∧
    conv c.conform (drive c.conform 0#32 m) = conv c.conform m) ∧
  ∀ (c : Cfg) (m : Num32), F32.isFinite m = true → F32.isFinite (c.softClip 0#32 m) = true →
    F32.units (drive c 0#32 m) = F32.units m ∧ (F32.magUnits m ≠ 0 → drive c 0#32 m = m)

/-- With the default conversion (44_drive_output.md R177) every word a `SYNTH` emits is saturated where the
driven mix of its frame is outside the range, and 0 where it is a zero (60_exceptions.md R241; R173). The
conversion itself is open (92_eei_decisions.md D11), so the default is a premise. The word 0 for both zeros
holds for every configuration made to keep the rules (90_conflicts.md C6). -/
def Obligations.ConversionSaturates : Prop :=
  (∀ (c : Cfg) (s : State) (note mod : BitVec 8) (frames : BitVec 12) (k : Nat),
    c.toFixed = Rc0.toFixed → k < frames.toNat →
    let x := drive c s.driveAmount (mixAt c (controlUpdate c note mod s) k)
    F32.isFinite x = true →
    ∃ b, (synth c note mod frames s).smp[s.smp.length + k]? = some b ∧
      (2 ^ 149 ≤ F32.units x → b.data = 0x7FFFFFFF#32) ∧
      (F32.units x ≤ -2 ^ 149 → b.data = 0x80000000#32) ∧
      (F32.units x = 0 → b.data = 0#32)) ∧
  ∀ (c : Cfg) (x : Num32), F32.isFinite x = true → F32.units x = 0 → conv c.conform x = 0#32

/-! ## Invariants (10_state.md R40) -/

/-- Every step keeps the invariant of the machine: `voiceCount` at most 4, `driveAmount` in [0, 1], every
note at most 267 (10_state.md R40), the cursor rule of 41_allocator.md R113 g, and the ports at rest between
operations (20_memory.md R52). -/
def Obligations.StepKeepsInvariant : Prop :=
  ∀ s : State, s.Inv → ∃ t, step s = .next t ∧ t.Inv

/-! ## The number format (00_scope.md R11, R14) and the default bodies (46_primitives.md) -/

/-- Addition is binary32 addition: no finite datum is nearer to the exact sum than a finite result, and on a
tie the significand is even (00_scope.md R11, R14). -/
def Obligations.AddRoundsToNearestEven : Prop :=
  ∀ a b x : Num32, F32.isFinite a = true → F32.isFinite b = true →
    F32.isFinite (F32.add a b) = true → F32.isFinite x = true →
    (F32.units (F32.add a b) - (F32.units a + F32.units b)).natAbs ≤
      (F32.units x - (F32.units a + F32.units b)).natAbs ∧
    (F32.units x ≠ F32.units (F32.add a b) →
      (F32.units x - (F32.units a + F32.units b)).natAbs =
        (F32.units (F32.add a b) - (F32.units a + F32.units b)).natAbs →
      F32.mag (F32.add a b) % 2 = 0)

/-- Multiplication, in units of 2^-298: no finite datum is nearer to the exact product, and on a tie the
significand is even (00_scope.md R11, R14). -/
def Obligations.MulRoundsToNearestEven : Prop :=
  ∀ a b x : Num32, F32.isFinite a = true → F32.isFinite b = true →
    F32.isFinite (F32.mul a b) = true → F32.isFinite x = true →
    (F32.units (F32.mul a b) * 2 ^ 149 - F32.units a * F32.units b).natAbs ≤
      (F32.units x * 2 ^ 149 - F32.units a * F32.units b).natAbs ∧
    (F32.units x ≠ F32.units (F32.mul a b) →
      (F32.units x * 2 ^ 149 - F32.units a * F32.units b).natAbs =
        (F32.units (F32.mul a b) * 2 ^ 149 - F32.units a * F32.units b).natAbs →
      F32.mag (F32.mul a b) % 2 = 0)

/-- Division by a non-zero datum, scaled by the divisor: no finite datum is nearer to the exact quotient,
and on a tie the significand is even (00_scope.md R11, R14). -/
def Obligations.DivRoundsToNearestEven : Prop :=
  ∀ a b x : Num32, F32.isFinite a = true → F32.isFinite b = true → F32.units b ≠ 0 →
    F32.isFinite (F32.div a b) = true → F32.isFinite x = true →
    (F32.units (F32.div a b) * F32.units b - F32.units a * 2 ^ 149).natAbs ≤
      (F32.units x * F32.units b - F32.units a * 2 ^ 149).natAbs ∧
    (F32.units x ≠ F32.units (F32.div a b) →
      (F32.units x * F32.units b - F32.units a * 2 ^ 149).natAbs =
        (F32.units (F32.div a b) * F32.units b - F32.units a * 2 ^ 149).natAbs →
      F32.mag (F32.div a b) % 2 = 0)

/-- `floor` of a finite datum is finite and exactly the greatest integer not above it (00_scope.md R14). -/
def Obligations.FloorIsGreatestInteger : Prop :=
  ∀ x : Num32, F32.isFinite x = true →
    F32.isFinite (F32.floor x) = true ∧
    F32.units (F32.floor x) = F32.units x / 2 ^ 149 * 2 ^ 149

/-- The default `toFixed` of 44_drive_output.md R177: truncation toward zero of `s * 2^31`, clamped to 32
bits; the two ends, the zeros, the values too small, the values that convert exactly. -/
def Obligations.DefaultToFixedTruncatesAndSaturates : Prop :=
  (∀ x : Num32, F32.isFinite x = true →
    (Rc0.toFixed x).toInt =
      max (-(2 ^ 31)) (min (2 ^ 31 - 1) (Int.tdiv (F32.units x * 2 ^ 31) (2 ^ 149))) ∧
    (2 ^ 149 ≤ F32.units x → Rc0.toFixed x = 0x7FFFFFFF#32) ∧
    (F32.units x ≤ -2 ^ 149 → Rc0.toFixed x = 0x80000000#32) ∧
    (F32.magUnits x < 2 ^ 118 → Rc0.toFixed x = 0#32) ∧
    (2 ^ 141 ≤ F32.magUnits x → F32.magUnits x < 2 ^ 149 →
      (Rc0.toFixed x).toInt * 2 ^ 118 = F32.units x)) ∧
  Rc0.toFixed 0x00000000#32 = 0x00000000#32 ∧ Rc0.toFixed 0x80000000#32 = 0x00000000#32 ∧
  Rc0.toFixed 0x3F000000#32 = 0x40000000#32 ∧ Rc0.toFixed 0xBF000000#32 = 0xC0000000#32 ∧
  Rc0.toFixed 0x3F800000#32 = 0x7FFFFFFF#32 ∧ Rc0.toFixed 0xBF800000#32 = 0x80000000#32

/-- The default `softClip` of 46_primitives.md R216: at threshold 0 the clamped signal, 0 at 0, `1 - c` at
1, and odd in the signal. -/
def Obligations.DefaultSoftClipShape : Prop :=
  (∀ x : Num32, F32.isFinite x = true →
    F32.units (Rc0.softClip 0#32 x) = max (-(2 ^ 149)) (min (2 ^ 149) (F32.units x))) ∧
  (∀ t : Num32, F32.isFinite t = true →
    F32.units (Rc0.softClip t 0#32) = 0 ∧ Rc0.softClip t F32.one = F32.sub F32.one t) ∧
  (∀ t x : Num32, F32.isFinite t = true → F32.isFinite x = true →
    F32.units (Rc0.softClip t (F32.neg x)) = -F32.units (Rc0.softClip t x))

/-! ## The clip of RESOLVE (60_exceptions.md R241, 42_resolver.md R133) -/

/-- The clip of `RESOLVE` (60_exceptions.md R241 "clipped to `F_MAX`", "not clipped, used as is";
42_resolver.md R133, R137 c and d), as `SYNTH` runs it for every configuration made to keep the rules, of
which the machine's is one. With `f` the interpolated frequency of an active slot, `f` and `F_MAX` finite:
the increment is that of `F_MAX` where `f >= F_MAX`, that of `f` where `f` is negative below `F_MAX` (no
lower bound), and, with the default clip (46_primitives.md R218), that of `f` wherever `f < F_MAX`. -/
def Obligations.FrequencyIsClippedFromAboveOnly : Prop :=
  ∀ (c : Cfg) (s : State) (note mod : BitVec 8) (frames : BitVec 12) (i : Fin 4),
    (synth c.conform note mod frames s).isActive i →
    let v := (synth c.conform note mod frames s).voice i
    let f := c.lerp
      (F32.add (F32.mul (F32.ofNat mod.toNat) c.noteModScale)
        (if i.val < 2 then F32.neg s.detuneAmount else s.detuneAmount))
      (c.noteHz v.note) (c.noteHz (v.note + 1#9))
    let dither := F32.mul c.ditherScale (c.conform.noise (s.draws + i.val))
    F32.isFinite f = true → F32.isFinite c.fMax = true →
    (F32.units c.fMax ≤ F32.units f → v.inc = F32.add (F32.mul c.fMax c.srRecip) dither) ∧
    (F32.units f < F32.units c.fMax → F32.units f < 0 →
      v.inc = F32.add (F32.mul f c.srRecip) dither) ∧
    (F32.units f < F32.units c.fMax → c.clipMax = Rc0.clipMax →
      v.inc = F32.add (F32.mul f c.srRecip) dither)
end

