-- ==== Sys2Proof/Laws/State.lean ====
section
/-! SUPPORT. The small lemmas of the state's updates: one per field per update, and reading a voice slot
after writing one. -/

namespace Sys2Proof.Machine

/-! ## `State.putVoice` -/

@[simp] theorem State.putVoice_mode (s : State) (i : Fin 4) (v : Voice) :
    (s.putVoice i v).mode = s.mode := rfl
@[simp] theorem State.putVoice_driveAmount (s : State) (i : Fin 4) (v : Voice) :
    (s.putVoice i v).driveAmount = s.driveAmount := rfl
@[simp] theorem State.putVoice_detuneAmount (s : State) (i : Fin 4) (v : Voice) :
    (s.putVoice i v).detuneAmount = s.detuneAmount := rfl
@[simp] theorem State.putVoice_voiceCount (s : State) (i : Fin 4) (v : Voice) :
    (s.putVoice i v).voiceCount = s.voiceCount := rfl
@[simp] theorem State.putVoice_nextSlot (s : State) (i : Fin 4) (v : Voice) :
    (s.putVoice i v).nextSlot = s.nextSlot := rfl
@[simp] theorem State.putVoice_lastNoteSeen (s : State) (i : Fin 4) (v : Voice) :
    (s.putVoice i v).lastNoteSeen = s.lastNoteSeen := rfl
@[simp] theorem State.putVoice_voices (s : State) (i : Fin 4) (v : Voice) :
    (s.putVoice i v).voices = s.voices.set v i := rfl
@[simp] theorem State.putVoice_cmdReady (s : State) (i : Fin 4) (v : Voice) :
    (s.putVoice i v).cmdReady = s.cmdReady := rfl
@[simp] theorem State.putVoice_smpValid (s : State) (i : Fin 4) (v : Voice) :
    (s.putVoice i v).smpValid = s.smpValid := rfl
@[simp] theorem State.putVoice_cmds (s : State) (i : Fin 4) (v : Voice) :
    (s.putVoice i v).cmds = s.cmds := rfl
@[simp] theorem State.putVoice_smp (s : State) (i : Fin 4) (v : Voice) :
    (s.putVoice i v).smp = s.smp := rfl
@[simp] theorem State.putVoice_draws (s : State) (i : Fin 4) (v : Voice) :
    (s.putVoice i v).draws = s.draws := rfl

/-! ## `State.afterDraw` -/

@[simp] theorem State.afterDraw_mode (s : State) :
    (s.afterDraw).mode = s.mode := rfl
@[simp] theorem State.afterDraw_driveAmount (s : State) :
    (s.afterDraw).driveAmount = s.driveAmount := rfl
@[simp] theorem State.afterDraw_detuneAmount (s : State) :
    (s.afterDraw).detuneAmount = s.detuneAmount := rfl
@[simp] theorem State.afterDraw_voiceCount (s : State) :
    (s.afterDraw).voiceCount = s.voiceCount := rfl
@[simp] theorem State.afterDraw_nextSlot (s : State) :
    (s.afterDraw).nextSlot = s.nextSlot := rfl
@[simp] theorem State.afterDraw_lastNoteSeen (s : State) :
    (s.afterDraw).lastNoteSeen = s.lastNoteSeen := rfl
@[simp] theorem State.afterDraw_voices (s : State) :
    (s.afterDraw).voices = s.voices := rfl
@[simp] theorem State.afterDraw_cmdReady (s : State) :
    (s.afterDraw).cmdReady = s.cmdReady := rfl
@[simp] theorem State.afterDraw_smpValid (s : State) :
    (s.afterDraw).smpValid = s.smpValid := rfl
@[simp] theorem State.afterDraw_cmds (s : State) :
    (s.afterDraw).cmds = s.cmds := rfl
@[simp] theorem State.afterDraw_smp (s : State) :
    (s.afterDraw).smp = s.smp := rfl
@[simp] theorem State.afterDraw_draws (s : State) :
    (s.afterDraw).draws = s.draws + 1 := rfl

/-! ## `State.emit` -/

@[simp] theorem State.emit_mode (s : State) (w : SmpWord) (l : Bool) :
    (s.emit w l).mode = s.mode := rfl
@[simp] theorem State.emit_driveAmount (s : State) (w : SmpWord) (l : Bool) :
    (s.emit w l).driveAmount = s.driveAmount := rfl
@[simp] theorem State.emit_detuneAmount (s : State) (w : SmpWord) (l : Bool) :
    (s.emit w l).detuneAmount = s.detuneAmount := rfl
@[simp] theorem State.emit_voiceCount (s : State) (w : SmpWord) (l : Bool) :
    (s.emit w l).voiceCount = s.voiceCount := rfl
@[simp] theorem State.emit_nextSlot (s : State) (w : SmpWord) (l : Bool) :
    (s.emit w l).nextSlot = s.nextSlot := rfl
@[simp] theorem State.emit_lastNoteSeen (s : State) (w : SmpWord) (l : Bool) :
    (s.emit w l).lastNoteSeen = s.lastNoteSeen := rfl
@[simp] theorem State.emit_voices (s : State) (w : SmpWord) (l : Bool) :
    (s.emit w l).voices = s.voices := rfl
@[simp] theorem State.emit_cmdReady (s : State) (w : SmpWord) (l : Bool) :
    (s.emit w l).cmdReady = s.cmdReady := rfl
@[simp] theorem State.emit_smpValid (s : State) (w : SmpWord) (l : Bool) :
    (s.emit w l).smpValid = true := rfl
@[simp] theorem State.emit_cmds (s : State) (w : SmpWord) (l : Bool) :
    (s.emit w l).cmds = s.cmds := rfl
@[simp] theorem State.emit_smp (s : State) (w : SmpWord) (l : Bool) :
    (s.emit w l).smp = s.smp ++ [{ data := w, last := l }] := rfl
@[simp] theorem State.emit_draws (s : State) (w : SmpWord) (l : Bool) :
    (s.emit w l).draws = s.draws := rfl

/-! ## `State.endStream` -/

@[simp] theorem State.endStream_mode (s : State) :
    (s.endStream).mode = s.mode := rfl
@[simp] theorem State.endStream_driveAmount (s : State) :
    (s.endStream).driveAmount = s.driveAmount := rfl
@[simp] theorem State.endStream_detuneAmount (s : State) :
    (s.endStream).detuneAmount = s.detuneAmount := rfl
@[simp] theorem State.endStream_voiceCount (s : State) :
    (s.endStream).voiceCount = s.voiceCount := rfl
@[simp] theorem State.endStream_nextSlot (s : State) :
    (s.endStream).nextSlot = s.nextSlot := rfl
@[simp] theorem State.endStream_lastNoteSeen (s : State) :
    (s.endStream).lastNoteSeen = s.lastNoteSeen := rfl
@[simp] theorem State.endStream_voices (s : State) :
    (s.endStream).voices = s.voices := rfl
@[simp] theorem State.endStream_cmdReady (s : State) :
    (s.endStream).cmdReady = s.cmdReady := rfl
@[simp] theorem State.endStream_smpValid (s : State) :
    (s.endStream).smpValid = false := rfl
@[simp] theorem State.endStream_cmds (s : State) :
    (s.endStream).cmds = s.cmds := rfl
@[simp] theorem State.endStream_smp (s : State) :
    (s.endStream).smp = s.smp := rfl
@[simp] theorem State.endStream_draws (s : State) :
    (s.endStream).draws = s.draws := rfl

/-! ## `State.complete` -/

@[simp] theorem State.complete_mode (s : State) :
    (s.complete).mode = s.mode := rfl
@[simp] theorem State.complete_driveAmount (s : State) :
    (s.complete).driveAmount = s.driveAmount := rfl
@[simp] theorem State.complete_detuneAmount (s : State) :
    (s.complete).detuneAmount = s.detuneAmount := rfl
@[simp] theorem State.complete_voiceCount (s : State) :
    (s.complete).voiceCount = s.voiceCount := rfl
@[simp] theorem State.complete_nextSlot (s : State) :
    (s.complete).nextSlot = s.nextSlot := rfl
@[simp] theorem State.complete_lastNoteSeen (s : State) :
    (s.complete).lastNoteSeen = s.lastNoteSeen := rfl
@[simp] theorem State.complete_voices (s : State) :
    (s.complete).voices = s.voices := rfl
@[simp] theorem State.complete_cmdReady (s : State) :
    (s.complete).cmdReady = true := rfl
@[simp] theorem State.complete_smpValid (s : State) :
    (s.complete).smpValid = s.smpValid := rfl
@[simp] theorem State.complete_cmds (s : State) :
    (s.complete).cmds = s.cmds := rfl
@[simp] theorem State.complete_smp (s : State) :
    (s.complete).smp = s.smp := rfl
@[simp] theorem State.complete_draws (s : State) :
    (s.complete).draws = s.draws := rfl

/-! ## `State.zeroRegisters` -/

@[simp] theorem State.zeroRegisters_mode (s : State) :
    (s.zeroRegisters).mode = .poly := rfl
@[simp] theorem State.zeroRegisters_driveAmount (s : State) :
    (s.zeroRegisters).driveAmount = F32.zero := rfl
@[simp] theorem State.zeroRegisters_detuneAmount (s : State) :
    (s.zeroRegisters).detuneAmount = F32.zero := rfl
@[simp] theorem State.zeroRegisters_voiceCount (s : State) :
    (s.zeroRegisters).voiceCount = 0#3 := rfl
@[simp] theorem State.zeroRegisters_nextSlot (s : State) :
    (s.zeroRegisters).nextSlot = 0#2 := rfl
@[simp] theorem State.zeroRegisters_lastNoteSeen (s : State) :
    (s.zeroRegisters).lastNoteSeen = 0#8 := rfl
@[simp] theorem State.zeroRegisters_voices (s : State) :
    (s.zeroRegisters).voices = VoiceFile.zero := rfl
@[simp] theorem State.zeroRegisters_cmdReady (s : State) :
    (s.zeroRegisters).cmdReady = s.cmdReady := rfl
@[simp] theorem State.zeroRegisters_smpValid (s : State) :
    (s.zeroRegisters).smpValid = s.smpValid := rfl
@[simp] theorem State.zeroRegisters_cmds (s : State) :
    (s.zeroRegisters).cmds = s.cmds := rfl
@[simp] theorem State.zeroRegisters_smp (s : State) :
    (s.zeroRegisters).smp = s.smp := rfl
@[simp] theorem State.zeroRegisters_draws (s : State) :
    (s.zeroRegisters).draws = s.draws := rfl

/-! ## The voice file -/

/-- Reading the slot just written. -/
@[simp] theorem VoiceFile.get_set_same (f : VoiceFile) (v : Voice) (i : Fin 4) :
    (f.set v i).get i = v := by
  match i with
  | 0 | 1 | 2 | 3 => rfl

/-- Reading another slot than the one written. -/
theorem VoiceFile.get_set_ne (f : VoiceFile) (v : Voice) {i j : Fin 4} (h : j ≠ i) :
    (f.set v i).get j = f.get j := by
  revert h
  match i, j with
  | 0, 0 | 1, 1 | 2, 2 | 3, 3 => exact fun h => absurd rfl h
  | 0, 1 | 0, 2 | 0, 3 | 1, 0 | 1, 2 | 1, 3 | 2, 0 | 2, 1 | 2, 3 | 3, 0 | 3, 1 | 3, 2 =>
    exact fun _ => rfl

/-- Two voice files with the same slots are the same. -/
theorem VoiceFile.ext_get {f g : VoiceFile} (h : ∀ i, f.get i = g.get i) : f = g := by
  have h0 := h 0
  have h1 := h 1
  have h2 := h 2
  have h3 := h 3
  cases f
  cases g
  simp only [VoiceFile.get] at h0 h1 h2 h3
  simp only [h0, h1, h2, h3]

/-- Every slot of the voice file of reset is the zero voice. -/
@[simp] theorem VoiceFile.get_zero (i : Fin 4) : VoiceFile.zero.get i = Voice.zero := by
  match i with
  | 0 | 1 | 2 | 3 => rfl

@[simp] theorem State.voice_putVoice_same (s : State) (i : Fin 4) (v : Voice) :
    (s.putVoice i v).voice i = v := VoiceFile.get_set_same _ _ _

theorem State.voice_putVoice_ne (s : State) (v : Voice) {i j : Fin 4} (h : j ≠ i) :
    (s.putVoice i v).voice j = s.voice j := VoiceFile.get_set_ne _ _ h

/-- Reading any slot after writing slot `i`. -/
theorem State.voice_putVoice (s : State) (v : Voice) (i j : Fin 4) :
    (s.putVoice i v).voice j = if j = i then v else s.voice j := by
  split
  · next h => subst h; exact s.voice_putVoice_same _ _
  · next h => exact s.voice_putVoice_ne v h

@[simp] theorem State.voice_afterDraw (s : State) (j : Fin 4) :
    (s.afterDraw).voice j = s.voice j := rfl

@[simp] theorem State.voice_emit (s : State) (w : SmpWord) (l : Bool) (j : Fin 4) :
    (s.emit w l).voice j = s.voice j := rfl

@[simp] theorem State.voice_endStream (s : State) (j : Fin 4) :
    (s.endStream).voice j = s.voice j := rfl

@[simp] theorem State.voice_complete (s : State) (j : Fin 4) :
    (s.complete).voice j = s.voice j := rfl

@[simp] theorem State.voice_zeroRegisters (s : State) (j : Fin 4) :
    (s.zeroRegisters).voice j = Voice.zero := VoiceFile.get_zero j

end Sys2Proof.Machine
end

