-- ==== Sys2Proof/Laws/Ops.lean ====
section
/-! SUPPORT. The active slots: which they are, and what a loop over them does to the voice file. -/

namespace Sys2Proof.Machine

/-- The active slots depend on `voiceCount` alone. -/
theorem State.activeSlots_congr {s t : State} (h : s.voiceCount = t.voiceCount) :
    s.activeSlots = t.activeSlots := by
  unfold State.activeSlots
  rw [h]

/-- A slot is active when its index is below `voiceCount` (10_state.md R25). -/
theorem State.mem_activeSlots (s : State) (i : Fin 4) :
    i ∈ s.activeSlots ↔ i.val < s.voiceCount.toNat := by
  unfold State.activeSlots
  rw [List.mem_filter, decide_eq_true_eq]
  refine and_iff_right ?_
  match i with
  | 0 | 1 | 2 | 3 => decide

/-- The active slots written out, by `voiceCount`. -/
theorem State.activeSlots_cases (s : State) :
    (s.voiceCount = 0#3 ∧ s.activeSlots = []) ∨
    (s.voiceCount = 1#3 ∧ s.activeSlots = [0]) ∨
    (s.voiceCount = 2#3 ∧ s.activeSlots = [0, 1]) ∨
    (s.voiceCount = 3#3 ∧ s.activeSlots = [0, 1, 2]) ∨
    (4 ≤ s.voiceCount.toNat ∧ s.activeSlots = [0, 1, 2, 3]) := by
  unfold State.activeSlots
  generalize s.voiceCount = n
  revert n
  decide

/-- There are `min voiceCount 4` active slots. -/
theorem State.length_activeSlots (s : State) :
    s.activeSlots.length = min s.voiceCount.toNat 4 := by
  unfold State.activeSlots
  generalize s.voiceCount = n
  revert n
  decide

/-- A property every trip of a loop keeps is kept by the loop. -/
theorem foldl_keeps {α β : Type} (P : α → Prop) (f : α → β → α) (l : List β) (a : α)
    (h0 : P a) (h : ∀ a b, P a → P (f a b)) : P (l.foldl f a) := by
  induction l generalizing a with
  | nil => exact h0
  | cons b l ih => exact ih (f a b) (h a b h0)

end Sys2Proof.Machine
end

