-- ==== Sys2Proof/Laws/Alloc.lean ====
section
/-! SUPPORT. What the allocation stage can do (41_allocator.md), once. -/

namespace Sys2Proof.Machine

/-! ## SetVoice (R110) -/

@[simp] theorem setVoice_mode (c : Cfg) (i : Fin 4) (n : BitVec 9) (s : State) :
    (setVoice c i n s).mode = s.mode := rfl
@[simp] theorem setVoice_driveAmount (c : Cfg) (i : Fin 4) (n : BitVec 9) (s : State) :
    (setVoice c i n s).driveAmount = s.driveAmount := rfl
@[simp] theorem setVoice_detuneAmount (c : Cfg) (i : Fin 4) (n : BitVec 9) (s : State) :
    (setVoice c i n s).detuneAmount = s.detuneAmount := rfl
@[simp] theorem setVoice_voiceCount (c : Cfg) (i : Fin 4) (n : BitVec 9) (s : State) :
    (setVoice c i n s).voiceCount = s.voiceCount := rfl
@[simp] theorem setVoice_nextSlot (c : Cfg) (i : Fin 4) (n : BitVec 9) (s : State) :
    (setVoice c i n s).nextSlot = s.nextSlot := rfl
@[simp] theorem setVoice_lastNoteSeen (c : Cfg) (i : Fin 4) (n : BitVec 9) (s : State) :
    (setVoice c i n s).lastNoteSeen = s.lastNoteSeen := rfl
@[simp] theorem setVoice_cmdReady (c : Cfg) (i : Fin 4) (n : BitVec 9) (s : State) :
    (setVoice c i n s).cmdReady = s.cmdReady := rfl
@[simp] theorem setVoice_smpValid (c : Cfg) (i : Fin 4) (n : BitVec 9) (s : State) :
    (setVoice c i n s).smpValid = s.smpValid := rfl
@[simp] theorem setVoice_cmds (c : Cfg) (i : Fin 4) (n : BitVec 9) (s : State) :
    (setVoice c i n s).cmds = s.cmds := rfl
@[simp] theorem setVoice_smp (c : Cfg) (i : Fin 4) (n : BitVec 9) (s : State) :
    (setVoice c i n s).smp = s.smp := rfl
@[simp] theorem setVoice_draws (c : Cfg) (i : Fin 4) (n : BitVec 9) (s : State) :
    (setVoice c i n s).draws = s.draws := rfl

/-- Any slot after `SetVoice(i, n)`. -/
theorem setVoice_voice (c : Cfg) (i j : Fin 4) (n : BitVec 9) (s : State) :
    (setVoice c i n s).voice j =
      if j = i then { s.voice i with note := n, wti := tableIndex c (waveKind s.mode) n }
      else s.voice j :=
  State.voice_putVoice _ _ _ _

/-! ## The full-reset policies (R114, R116) -/

/-- Any slot after a full reset: slots 0 and 2 hold `n0`, slots 1 and 3 hold `n1`, each with its own table
index; phase and increment are kept. -/
theorem allocFull_voice (c : Cfg) (n0 n1 : BitVec 9) (s : State) (j : Fin 4) :
    (allocFull c n0 n1 s).voice j =
      { s.voice j with
        note := if j.val % 2 = 0 then n0 else n1
        wti := tableIndex c (waveKind s.mode) (if j.val % 2 = 0 then n0 else n1) } := by
  match j with
  | 0 | 1 | 2 | 3 => rfl

/-! ## The stage -/

/-- Everything the stage can do: allocate one slot, nothing, or a full reset. -/
theorem alloc_cases (c : Cfg) (base : BitVec 8) (s : State) :
    (allocPolicy s.mode = .poly ∧ isNewNote base s = true ∧
      alloc c base s =
        { setVoice c s.nextSlot.toFin (baseNote9 base) s with
          nextSlot := s.nextSlot + 1#2
          voiceCount := bumpCount s.voiceCount
          lastNoteSeen := base }) ∨
    (allocPolicy s.mode = .poly ∧ isNewNote base s = false ∧ alloc c base s = s) ∨
    (∃ off, allocPolicy s.mode = .pair off ∧
      alloc c base s = allocFull c (baseNote9 base) (baseNote9 base + off) s) ∨
    (allocPolicy s.mode = .unison ∧
      alloc c base s = allocFull c (baseNote9 base) (baseNote9 base) s) := by
  unfold alloc
  cases hp : allocPolicy s.mode with
  | poly =>
    cases hn : isNewNote base s with
    | true => exact .inl ⟨rfl, rfl, by simp [allocPoly, hn]⟩
    | false => exact .inr (.inl ⟨rfl, rfl, by simp [allocPoly, hn]⟩)
  | pair off => exact .inr (.inr (.inl ⟨off, rfl, rfl⟩))
  | unison => exact .inr (.inr (.inr ⟨rfl, rfl⟩))

/-- What a full reset never writes. -/
theorem allocFull_frame (c : Cfg) (n0 n1 : BitVec 9) (s : State) :
    (allocFull c n0 n1 s).mode = s.mode ∧ (allocFull c n0 n1 s).driveAmount = s.driveAmount ∧
    (allocFull c n0 n1 s).detuneAmount = s.detuneAmount ∧
    (allocFull c n0 n1 s).lastNoteSeen = s.lastNoteSeen ∧
    (allocFull c n0 n1 s).cmdReady = s.cmdReady ∧
    (allocFull c n0 n1 s).smpValid = s.smpValid ∧ (allocFull c n0 n1 s).cmds = s.cmds ∧
    (allocFull c n0 n1 s).smp = s.smp ∧ (allocFull c n0 n1 s).draws = s.draws :=
  ⟨rfl, rfl, rfl, rfl, rfl, rfl, rfl, rfl, rfl⟩

/-- What the stage never writes but for the slots (R110). -/
theorem alloc_frame (c : Cfg) (base : BitVec 8) (s : State) :
    (alloc c base s).mode = s.mode ∧ (alloc c base s).driveAmount = s.driveAmount ∧
    (alloc c base s).detuneAmount = s.detuneAmount ∧ (alloc c base s).cmdReady = s.cmdReady ∧
    (alloc c base s).smpValid = s.smpValid ∧ (alloc c base s).cmds = s.cmds ∧
    (alloc c base s).smp = s.smp ∧ (alloc c base s).draws = s.draws := by
  obtain ⟨-, -, h⟩ | ⟨-, -, h⟩ | ⟨off, -, h⟩ | ⟨-, h⟩ := alloc_cases c base s
  · simp [h]
  · simp [h]
  all_goals
    rw [h]
    obtain ⟨h1, h2, h3, -, h4⟩ := allocFull_frame c (baseNote9 base) _ s
    exact ⟨h1, h2, h3, h4⟩

/-- No slot's phase or increment is written by the stage (R110, 10_state.md R33). -/
theorem alloc_phase_inc (c : Cfg) (base : BitVec 8) (s : State) (i : Fin 4) :
    ((alloc c base s).voice i).phase = (s.voice i).phase ∧
    ((alloc c base s).voice i).inc = (s.voice i).inc := by
  obtain ⟨-, -, h⟩ | ⟨-, -, h⟩ | ⟨off, -, h⟩ | ⟨-, h⟩ := alloc_cases c base s
  · have hv : (alloc c base s).voice i
        = (setVoice c s.nextSlot.toFin (baseNote9 base) s).voice i := by rw [h]; rfl
    rw [hv, setVoice_voice]
    split
    · next hi => subst hi; exact ⟨rfl, rfl⟩
    · exact ⟨rfl, rfl⟩
  · rw [h]
    exact ⟨rfl, rfl⟩
  all_goals rw [h, allocFull_voice]; exact ⟨rfl, rfl⟩

/-- The saturating increment (R118). -/
theorem bumpCount_toNat (n : BitVec 3) : (bumpCount n).toNat = min (n.toNat + 1) 4 := by
  revert n
  decide

end Sys2Proof.Machine
end

