-- ==== Sys2Proof/Laws/Decode.lean ====
section
/-! SUPPORT. Fields of words put together by `++`, and the word put together from its fields. -/

namespace Sys2Proof

/-- The low field of an append. -/
theorem field_low {n m : Nat} (x : BitVec n) (y : BitVec m) : (x ++ y).extractLsb' 0 m = y := by
  apply BitVec.eq_of_getLsbD_eq
  intro i hi
  simp [BitVec.getLsbD_append, hi]

/-- A field above the low part of an append. -/
theorem field_high {n m : Nat} (x : BitVec n) (y : BitVec m) (k l : Nat) :
    (x ++ y).extractLsb' (m + k) l = x.extractLsb' k l := by
  apply BitVec.eq_of_getLsbD_eq
  intro i hi
  have h2 : ¬ (m + k + i < m) := by omega
  have h3 : m + k + i - m = k + i := by omega
  simp [BitVec.getLsbD_append, h2, h3, hi]

/-- The field that is the whole word. -/
theorem field_all {n : Nat} (x : BitVec n) : x.extractLsb' 0 n = x := by simp

/-- Two adjacent fields make one. -/
theorem field_join {n : Nat} (w : BitVec n) (a l m : Nat) :
    w.extractLsb' (a + m) l ++ w.extractLsb' a m = w.extractLsb' a (l + m) := by
  apply BitVec.eq_of_getLsbD_eq
  intro i hi
  simp only [BitVec.getLsbD_extractLsb', BitVec.getLsbD_append]
  by_cases h : i < m
  · simp [h, hi]
  · have h3 : a + m + (i - m) = a + i := by omega
    have h4 : i - m < l := by omega
    simp [h, h3, h4, hi]

/-! ## Format Z -/

theorem opField_formatZ (o : BitVec 4) (p : BitVec 12) (a : BitVec 16) :
    opField (o ++ p ++ a) = o :=
  (field_high (o ++ p) a 12 4).trans ((field_high o p 0 4).trans (field_all o))

theorem platField_formatZ (o : BitVec 4) (p : BitVec 12) (a : BitVec 16) :
    platField (o ++ p ++ a) = p :=
  (field_high (o ++ p) a 0 12).trans (field_low o p)

theorem apiField_formatZ (o : BitVec 4) (p : BitVec 12) (a : BitVec 16) :
    apiField (o ++ p ++ a) = a := field_low _ _

/-- A word is its format Z fields. -/
theorem join_formatZ (w : CmdWord) : opField w ++ platField w ++ apiField w = w := by
  have h1 := field_join w 16 4 12
  have h2 := field_join w 0 16 16
  unfold opField platField apiField
  rw [h1, h2, field_all]

/-! ## Format S -/

theorem opField_formatS (o : BitVec 4) (f : BitVec 12) (n m : BitVec 8) :
    opField (o ++ f ++ n ++ m) = o :=
  (field_high (o ++ f ++ n) m 20 4).trans
    ((field_high (o ++ f) n 12 4).trans ((field_high o f 0 4).trans (field_all o)))

theorem framesField_formatS (o : BitVec 4) (f : BitVec 12) (n m : BitVec 8) :
    framesField (o ++ f ++ n ++ m) = f :=
  (field_high (o ++ f ++ n) m 8 12).trans ((field_high (o ++ f) n 0 12).trans (field_low o f))

theorem noteField_formatS (o : BitVec 4) (f : BitVec 12) (n m : BitVec 8) :
    noteField (o ++ f ++ n ++ m) = n :=
  (field_high (o ++ f ++ n) m 0 8).trans (field_low _ n)

theorem modField_formatS (o : BitVec 4) (f : BitVec 12) (n m : BitVec 8) :
    modField (o ++ f ++ n ++ m) = m := field_low _ _

/-- A word is its format S fields. -/
theorem join_formatS (w : CmdWord) :
    opField w ++ framesField w ++ noteField w ++ modField w = w := by
  have h1 := field_join w 16 4 12
  have h2 := field_join w 8 16 8
  have h3 := field_join w 0 24 8
  unfold opField framesField noteField modField
  rw [h1, h2, h3, field_all]

/-! ## Format N -/

theorem opField_formatN (o : BitVec 4) (q : BitVec 28) : opField (o ++ q) = o :=
  (field_high o q 0 4).trans (field_all o)

theorem npField_formatN (o : BitVec 4) (q : BitVec 28) : npField (o ++ q) = q := field_low _ _

/-- A word is its format N fields. -/
theorem join_formatN (w : CmdWord) : opField w ++ npField w = w := by
  have h := field_join w 0 4 28
  unfold opField npField
  rw [h, field_all]

/-! ## Format P -/

theorem opField_formatP (o r : BitVec 4) (p : BitVec 8) (v : BitVec 16) :
    opField (o ++ r ++ p ++ v) = o :=
  (field_high (o ++ r ++ p) v 12 4).trans
    ((field_high (o ++ r) p 4 4).trans ((field_high o r 0 4).trans (field_all o)))

theorem rsvField_formatP (o r : BitVec 4) (p : BitVec 8) (v : BitVec 16) :
    rsvField (o ++ r ++ p ++ v) = r :=
  (field_high (o ++ r ++ p) v 8 4).trans ((field_high (o ++ r) p 0 4).trans (field_low o r))

theorem pidField_formatP (o r : BitVec 4) (p : BitVec 8) (v : BitVec 16) :
    pidField (o ++ r ++ p ++ v) = p :=
  (field_high (o ++ r ++ p) v 0 8).trans (field_low _ p)

theorem valueField_formatP (o r : BitVec 4) (p : BitVec 8) (v : BitVec 16) :
    valueField (o ++ r ++ p ++ v) = v := field_low _ _

/-- A word is its format P fields. -/
theorem join_formatP (w : CmdWord) :
    opField w ++ rsvField w ++ pidField w ++ valueField w = w := by
  have h1 := field_join w 24 4 4
  have h2 := field_join w 16 8 8
  have h3 := field_join w 0 16 16
  unfold opField rsvField pidField valueField
  rw [h1, h2, h3, field_all]

/-! ## Masks -/

/-- Appends of words of one shape are equal part by part. -/
theorem append_inj {n m : Nat} {a c : BitVec n} {b d : BitVec m} :
    a ++ b = c ++ d ↔ a = c ∧ b = d := by
  constructor
  · intro h
    have h1 := congrArg (fun x => x.extractLsb' (m + 0) n) h
    have h2 := congrArg (fun x => x.extractLsb' 0 m) h
    simp only [field_high, field_low, field_all] at h1 h2
    exact ⟨h1, h2⟩
  · rintro ⟨rfl, rfl⟩
    rfl

/-- The mask of the rows of formats Z, S and N reads the major opcode (30_encoding.md R81). -/
theorem mask_op (w : CmdWord) (o : BitVec 4) :
    w &&& 0xF0000000#32 = o ++ 0#28 ↔ opField w = o := by
  have hm : (0xF0000000#32 : BitVec 32) = 15#4 ++ 0#28 := by decide
  rw [hm]
  conv => lhs; lhs; rw [← join_formatN w]
  rw [BitVec.and_append, append_inj, show opField w &&& 15#4 = opField w from BitVec.and_allOnes]
  simp

/-- The mask of the rows of format P reads all three selecting fields (R81). -/
theorem mask_setp (w : CmdWord) (o r : BitVec 4) (p : BitVec 8) :
    w &&& 0xFFFF0000#32 = o ++ r ++ p ++ 0#16 ↔
      opField w = o ∧ rsvField w = r ∧ pidField w = p := by
  have hm : (0xFFFF0000#32 : BitVec 32) = 15#4 ++ 15#4 ++ 255#8 ++ 0#16 := by decide
  rw [hm]
  conv => lhs; lhs; rw [← join_formatP w]
  rw [BitVec.and_append, BitVec.and_append, BitVec.and_append, append_inj, append_inj, append_inj,
    show opField w &&& 15#4 = opField w from BitVec.and_allOnes,
    show rsvField w &&& 15#4 = rsvField w from BitVec.and_allOnes,
    show pidField w &&& 255#8 = pidField w from BitVec.and_allOnes]
  simp [and_assoc]

end Sys2Proof
end

