-- ==== Sys2Proof/Laws/Float.lean ====
section
/-! SUPPORT. What rounding does (`F32.roundMag`), once: no pattern stands for a number nearer to the exact
value, exact values are kept, bounds are kept. The operations of `Float.lean` are this rounding applied to
an exact whole-number result. -/

namespace Sys2Proof.Machine

/-! ## Packing a sign and a magnitude -/

theorem F32.toNat_pack (neg : Bool) {m : Nat} (h : m < 2 ^ 31) :
    (F32.pack neg m).toNat = if neg then 2 ^ 31 + m else m := by
  unfold F32.pack
  rw [BitVec.toNat_ofNat]
  apply Nat.mod_eq_of_lt
  split <;> omega

@[simp] theorem F32.mag_pack (neg : Bool) {m : Nat} (h : m < 2 ^ 31) :
    F32.mag (F32.pack neg m) = m := by
  unfold F32.mag
  rw [F32.toNat_pack neg h]
  split <;> omega

@[simp] theorem F32.sign_pack (neg : Bool) {m : Nat} (h : m < 2 ^ 31) :
    F32.sign (F32.pack neg m) = neg := by
  unfold F32.sign
  rw [BitVec.msb_eq_decide, F32.toNat_pack neg h]
  cases neg
  · simpa using h
  · simp

theorem F32.mag_lt (x : Num32) : F32.mag x < 2 ^ 31 := Nat.mod_lt _ (by decide)

/-- A datum is its sign and its magnitude pattern. -/
theorem F32.pack_sign_mag (x : Num32) : F32.pack (F32.sign x) (F32.mag x) = x := by
  apply BitVec.eq_of_toNat_eq
  rw [F32.toNat_pack _ (F32.mag_lt x)]
  have hs : F32.sign x = decide (2 ^ 31 ≤ x.toNat) := by
    unfold F32.sign
    rw [BitVec.msb_eq_decide]
  have hx := x.isLt
  unfold F32.mag
  rw [hs]
  by_cases h : 2 ^ 31 ≤ x.toNat
  · simp only [h, decide_true, if_true]
    omega
  · simp only [h, decide_false]
    have : x.toNat % 2 ^ 31 = x.toNat := Nat.mod_eq_of_lt (by omega)
    simpa using this

theorem F32.isFinite_iff (x : Num32) : F32.isFinite x = true ↔ F32.mag x < 0x7F800000 := by
  unfold F32.isFinite
  exact decide_eq_true_iff

/-- The sign of a datum read off its value, unless it is a zero. -/
theorem F32.natAbs_units (x : Num32) : (F32.units x).natAbs = F32.magUnits x := by
  unfold F32.units
  split <;> simp

/-! ## Patterns -/

/-- A pattern with exponent field 0 or 1 stands for itself. -/
theorem F32.patUnits_small {m : Nat} (h : m < 2 ^ 24) : F32.patUnits m = m := by
  unfold F32.patUnits
  split
  · next h0 => exact Nat.mod_eq_of_lt (by omega)
  · next h0 =>
    have h1 : m / 2 ^ 23 = 1 := by omega
    rw [h1]
    omega

/-- A pattern put together from a shift `k` and a significand `m`; a significand of 24 bits, or any with
`k = 0`, or the carry 2^24. -/
theorem F32.patUnits_shift {k m : Nat} (h : m ≤ 2 ^ 24) (hk : k = 0 ∨ 2 ^ 23 ≤ m) :
    F32.patUnits (k * 2 ^ 23 + m) = m * 2 ^ k := by
  rcases Nat.lt_or_ge m (2 ^ 23) with hm | hm
  · have hk0 : k = 0 := by omega
    subst hk0
    rw [Nat.zero_mul, Nat.zero_add, F32.patUnits_small (by omega), Nat.pow_zero, Nat.mul_one]
  · unfold F32.patUnits
    rcases Nat.lt_or_ge m (2 ^ 24) with hm2 | hm2
    · have h1 : (k * 2 ^ 23 + m) / 2 ^ 23 = k + 1 := by omega
      have h2 : (k * 2 ^ 23 + m) % 2 ^ 23 = m - 2 ^ 23 := by omega
      have h3 : 2 ^ 23 + (m - 2 ^ 23) = m := by omega
      rw [h1, h2, if_neg (by omega), Nat.add_sub_cancel, h3]
    · have h3 : m = 2 ^ 24 := by omega
      have h1 : (k * 2 ^ 23 + m) / 2 ^ 23 = k + 2 := by omega
      have h2 : (k * 2 ^ 23 + m) % 2 ^ 23 = 0 := by omega
      rw [h1, h2, if_neg (by omega), h3, show k + 2 - 1 = k + 1 from rfl, Nat.pow_succ]
      ring

/-- Every pattern is a shift and a significand of at most 24 bits. -/
theorem F32.exists_shift (p : Nat) :
    ∃ k m, p = k * 2 ^ 23 + m ∧ m < 2 ^ 24 ∧ (k = 0 ∨ 2 ^ 23 ≤ m) := by
  rcases Nat.lt_or_ge p (2 ^ 24) with h | h
  · exact ⟨0, p, by omega, h, .inl rfl⟩
  · exact ⟨p / 2 ^ 23 - 1, 2 ^ 23 + p % 2 ^ 23, by omega, by omega, .inr (by omega)⟩

/-- A larger pattern stands for a larger number. -/
theorem F32.patUnits_strictMono {p q : Nat} (h : p < q) : F32.patUnits p < F32.patUnits q := by
  obtain ⟨k, m, hp, hm, hk⟩ := F32.exists_shift p
  obtain ⟨l, n, hq, hn, hl⟩ := F32.exists_shift q
  subst hp
  subst hq
  rw [F32.patUnits_shift (by omega) hk, F32.patUnits_shift (by omega) hl]
  rcases Nat.lt_trichotomy k l with hkl | hkl | hkl
  · have hn' : 2 ^ 23 ≤ n := by omega
    obtain ⟨d, rfl⟩ := Nat.exists_eq_add_of_lt hkl
    calc m * 2 ^ k < 2 ^ 24 * 2 ^ k := Nat.mul_lt_mul_of_pos_right hm (by positivity)
      _ = 2 ^ 23 * 2 ^ (k + 1) := by ring
      _ ≤ 2 ^ 23 * 2 ^ (k + d + 1) :=
        Nat.mul_le_mul_left _ (Nat.pow_le_pow_right (by decide) (by omega))
      _ ≤ n * 2 ^ (k + d + 1) := Nat.mul_le_mul_right _ hn'
  · subst hkl
    exact Nat.mul_lt_mul_of_pos_right (by omega) (by positivity)
  · exfalso
    omega

theorem F32.patUnits_le_iff {p q : Nat} : F32.patUnits p ≤ F32.patUnits q ↔ p ≤ q := by
  constructor
  · intro h
    by_contra hc
    exact absurd (F32.patUnits_strictMono (Nat.lt_of_not_le hc)) (by omega)
  · intro h
    rcases Nat.lt_or_eq_of_le h with h | h
    · exact (F32.patUnits_strictMono h).le
    · rw [h]

theorem F32.patUnits_inj {p q : Nat} (h : F32.patUnits p = F32.patUnits q) : p = q :=
  Nat.le_antisymm (F32.patUnits_le_iff.mp h.le) (F32.patUnits_le_iff.mp h.ge)

/-- A number at least 2^(23+k) that a pattern stands for is a multiple of 2^k. -/
theorem F32.patUnits_dvd {p k : Nat} (h : 2 ^ (23 + k) ≤ F32.patUnits p) :
    2 ^ k ∣ F32.patUnits p := by
  obtain ⟨l, m, rfl, hm, hl⟩ := F32.exists_shift p
  rw [F32.patUnits_shift (by omega) hl] at h ⊢
  refine Dvd.dvd.mul_left (Nat.pow_dvd_pow 2 ?_) m
  by_contra hc
  have h1 : m * 2 ^ l < 2 ^ 24 * 2 ^ l := Nat.mul_lt_mul_of_pos_right hm (by positivity)
  have h2 : 2 ^ 24 * 2 ^ l = 2 ^ (24 + l) := (Nat.pow_add 2 24 l).symm
  have h3 : 2 ^ (24 + l) ≤ 2 ^ (23 + k) := Nat.pow_le_pow_right (by decide) (by omega)
  omega

/-! ## Division rounded to the nearest whole number -/

/-- The rounded quotient is the quotient or the next number. -/
theorem F32.roundDiv_bounds (n d : Nat) : n / d ≤ F32.roundDiv n d ∧ F32.roundDiv n d ≤ n / d + 1 := by
  unfold F32.roundDiv
  split
  · omega
  · split <;> omega

/-- An upper bound on the exact quotient is one on the rounded quotient. -/
theorem F32.roundDiv_le {n d u : Nat} (hd : 0 < d) (h : n ≤ u * d) : F32.roundDiv n d ≤ u := by
  have hq : n / d ≤ u := Nat.div_le_of_le_mul (by rwa [Nat.mul_comm] at h)
  have hb := F32.roundDiv_bounds n d
  rcases Nat.lt_or_eq_of_le hq with hq | hq
  · omega
  · have hr : n % d = 0 := by
      have := Nat.div_add_mod n d
      rw [hq, Nat.mul_comm] at this
      omega
    unfold F32.roundDiv
    rw [hr, if_pos (by omega)]
    omega

/-- A lower bound on the exact quotient is one on the rounded quotient. -/
theorem F32.le_roundDiv {n d u : Nat} (hd : 0 < d) (h : u * d ≤ n) : u ≤ F32.roundDiv n d :=
  le_trans ((Nat.le_div_iff_mul_le hd).mpr h) (F32.roundDiv_bounds n d).1

/-- An exact quotient is kept. -/
theorem F32.roundDiv_exact {d : Nat} (hd : 0 < d) (u : Nat) : F32.roundDiv (u * d) d = u :=
  Nat.le_antisymm (F32.roundDiv_le hd le_rfl) (F32.le_roundDiv hd le_rfl)

/-- The distance, in units of `1 / d`, between the whole number `u` and the quotient `n / d`. -/
def F32.dist (u n d : Nat) : Nat := ((u * d : Nat) - (n : Int)).natAbs

/-- No whole number is nearer to the exact quotient than the rounded one. -/
theorem F32.roundDiv_nearest {n d : Nat} (hd : 0 < d) (u : Nat) :
    F32.dist (F32.roundDiv n d) n d ≤ F32.dist u n d := by
  have hn := Nat.div_add_mod n d
  have hlt : n % d < d := Nat.mod_lt _ hd
  have hu : u * d ≤ d * (n / d) ∨ d * (n / d) + d ≤ u * d := by
    rcases Nat.lt_or_ge (n / d) u with h | h
    · right
      calc d * (n / d) + d = (n / d + 1) * d := by ring
        _ ≤ u * d := Nat.mul_le_mul_right d h
    · left
      rw [Nat.mul_comm d]
      exact Nat.mul_le_mul_right d h
  have h1 : (n / d + 1) * d = d * (n / d) + d := by ring
  have h0 : n / d * d = d * (n / d) := Nat.mul_comm _ _
  unfold F32.dist F32.roundDiv
  split
  · rw [h0]
    omega
  · split
    · rw [h1]
      omega
    · rcases Nat.mod_two_eq_zero_or_one (n / d) with h2 | h2
      · rw [h2, Nat.add_zero, h0]
        omega
      · rw [h2, h1]
        omega

/-- Where another whole number is as near, the rounded quotient is even. -/
theorem F32.roundDiv_tie {n d : Nat} (hd : 0 < d) {u : Nat} (hu : u ≠ F32.roundDiv n d)
    (h : F32.dist u n d = F32.dist (F32.roundDiv n d) n d) : F32.roundDiv n d % 2 = 0 := by
  have hn := Nat.div_add_mod n d
  have hlt : n % d < d := Nat.mod_lt _ hd
  have h1 : (n / d + 1) * d = d * (n / d) + d := by ring
  have h0 : n / d * d = d * (n / d) := Nat.mul_comm _ _
  have hfar : u * d + d ≤ d * (n / d) ∨ u = n / d ∨ u = n / d + 1 ∨
      d * (n / d) + d + d ≤ u * d := by
    rcases Nat.lt_trichotomy u (n / d) with hc | hc | hc
    · left
      calc u * d + d = (u + 1) * d := by ring
        _ ≤ n / d * d := Nat.mul_le_mul_right d hc
        _ = d * (n / d) := h0
    · exact .inr (.inl hc)
    · rcases Nat.lt_or_ge (n / d + 1) u with hc2 | hc2
      · right
        right
        right
        calc d * (n / d) + d + d = (n / d + 1 + 1) * d := by ring
          _ ≤ u * d := Nat.mul_le_mul_right d hc2
      · exact .inr (.inr (.inl (by omega)))
  unfold F32.dist F32.roundDiv at h
  unfold F32.roundDiv at hu ⊢
  split at h
  · next hc =>
    rw [if_pos hc] at hu ⊢
    rw [h0] at h
    rcases hfar with hf | hf | hf | hf
    · omega
    · exact absurd hf hu
    · rw [hf, h1] at h
      omega
    · omega
  · next hc =>
    rw [if_neg hc] at hu ⊢
    split at h
    · next hc2 =>
      rw [if_pos hc2] at hu ⊢
      rw [h1] at h
      rcases hfar with hf | hf | hf | hf
      · omega
      · rw [hf, h0] at h
        omega
      · exact absurd hf hu
      · omega
    · next hc2 =>
      rw [if_neg hc2]
      omega

/-! ## Rounding to a pattern -/

/-- The number of low bits that do not fit, and what follows from it. -/
theorem F32.shift_spec (q : Nat) :
    (Nat.log2 q - 23 = 0 ∧ q < 2 ^ 24) ∨
    (0 < Nat.log2 q - 23 ∧ 2 ^ (23 + (Nat.log2 q - 23)) ≤ q ∧
      q < 2 ^ (24 + (Nat.log2 q - 23))) := by
  rcases Nat.eq_zero_or_pos q with h0 | h0
  · left
    subst h0
    decide
  · have hlo : 2 ^ Nat.log2 q ≤ q := Nat.log2_self_le (by omega)
    have hhi : q < 2 ^ (Nat.log2 q + 1) := Nat.lt_log2_self
    rcases Nat.lt_or_ge 23 (Nat.log2 q) with h | h
    · right
      refine ⟨by omega, ?_, ?_⟩
      · rwa [show 23 + (Nat.log2 q - 23) = Nat.log2 q by omega]
      · rwa [show 24 + (Nat.log2 q - 23) = Nat.log2 q + 1 by omega]
    · left
      refine ⟨by omega, lt_of_lt_of_le hhi (Nat.pow_le_pow_right (by decide) (by omega))⟩

/-- The shift `k` and the significand `m` of the rounded pattern, before it is cut off at infinity: `m` is
the nearest whole number to `n / (d * 2^k)`, it has at most 24 bits but for the carry, and where `k` is
not 0 the exact value is at least `2^(23+k)`. -/
theorem F32.roundMag_shift {n d : Nat} (hd : 0 < d) :
    ∃ k, F32.roundMag n d = min (k * 2 ^ 23 + F32.roundDiv n (d * 2 ^ k)) 0x7F800000 ∧
      F32.roundDiv n (d * 2 ^ k) ≤ 2 ^ 24 ∧
      (k = 0 ∨ (2 ^ 23 ≤ F32.roundDiv n (d * 2 ^ k) ∧ 2 ^ (23 + k) * d ≤ n)) := by
  refine ⟨Nat.log2 (n / d) - 23, rfl, ?_⟩
  rcases F32.shift_spec (n / d) with ⟨hk, hq⟩ | ⟨hk, hlo, hhi⟩
  · rw [hk]
    refine ⟨?_, .inl rfl⟩
    apply F32.roundDiv_le (by positivity)
    have := Nat.lt_mul_of_div_lt hq hd
    rw [Nat.pow_zero, Nat.mul_one]
    omega
  · generalize Nat.log2 (n / d) - 23 = k at hk hlo hhi
    have hn : 2 ^ (23 + k) * d ≤ n := (Nat.le_div_iff_mul_le hd).mp hlo
    refine ⟨?_, .inr ⟨?_, hn⟩⟩
    · apply F32.roundDiv_le (by positivity)
      have h1 := Nat.lt_mul_of_div_lt hhi hd
      have h2 : 2 ^ 24 * (d * 2 ^ k) = 2 ^ (24 + k) * d := by ring
      omega
    · apply F32.le_roundDiv (by positivity)
      have h2 : 2 ^ 23 * (d * 2 ^ k) = 2 ^ (23 + k) * d := by ring
      omega

theorem F32.roundMag_le_inf (n d : Nat) : F32.roundMag n d ≤ 0x7F800000 := Nat.min_le_right _ _

theorem F32.roundMag_lt (n d : Nat) : F32.roundMag n d < 2 ^ 31 :=
  lt_of_le_of_lt (F32.roundMag_le_inf n d) (by decide)

/-- No pattern stands for a number nearer to the exact value than the rounded one. -/
theorem F32.roundMag_nearest {n d : Nat} (hd : 0 < d) (hfin : F32.roundMag n d < 0x7F800000)
    (p : Nat) :
    F32.dist (F32.patUnits (F32.roundMag n d)) n d ≤ F32.dist (F32.patUnits p) n d := by
  obtain ⟨k, hr, hm, hk⟩ := F32.roundMag_shift (n := n) hd
  have hr' : F32.roundMag n d = k * 2 ^ 23 + F32.roundDiv n (d * 2 ^ k) := by omega
  rw [hr', F32.patUnits_shift hm (hk.imp_right And.left)]
  have hd2 : 0 < d * 2 ^ k := by positivity
  have hnear : ∀ u, F32.dist (F32.roundDiv n (d * 2 ^ k) * 2 ^ k) n d ≤
      F32.dist (u * 2 ^ k) n d := by
    intro u
    have := F32.roundDiv_nearest (n := n) hd2 u
    unfold F32.dist at this ⊢
    rwa [show F32.roundDiv n (d * 2 ^ k) * (d * 2 ^ k)
        = F32.roundDiv n (d * 2 ^ k) * 2 ^ k * d by ring,
      show u * (d * 2 ^ k) = u * 2 ^ k * d by ring] at this
  rcases hk with hk | ⟨-, hn⟩
  · subst hk
    have := hnear (F32.patUnits p)
    simpa using this
  · rcases Nat.lt_or_ge (F32.patUnits p) (2 ^ (23 + k)) with hp | hp
    · have h1 := hnear (2 ^ 23)
      rw [← Nat.pow_add] at h1
      refine le_trans h1 ?_
      have h2 : F32.patUnits p * d ≤ 2 ^ (23 + k) * d := Nat.mul_le_mul_right d hp.le
      unfold F32.dist
      omega
    · obtain ⟨u, hu⟩ := F32.patUnits_dvd hp
      rw [hu, Nat.mul_comm (2 ^ k) u]
      exact hnear u

/-- Where another pattern stands for a number as near, the rounded pattern is even: ties go to the even
significand. -/
theorem F32.roundMag_tie {n d : Nat} (hd : 0 < d) (hfin : F32.roundMag n d < 0x7F800000)
    {p : Nat} (hp : p ≠ F32.roundMag n d)
    (h : F32.dist (F32.patUnits p) n d = F32.dist (F32.patUnits (F32.roundMag n d)) n d) :
    F32.roundMag n d % 2 = 0 := by
  obtain ⟨k, hr, hm, hk⟩ := F32.roundMag_shift (n := n) hd
  have hr' : F32.roundMag n d = k * 2 ^ 23 + F32.roundDiv n (d * 2 ^ k) := by omega
  have hval : F32.patUnits (F32.roundMag n d) = F32.roundDiv n (d * 2 ^ k) * 2 ^ k := by
    rw [hr', F32.patUnits_shift hm (hk.imp_right And.left)]
  have hd2 : 0 < d * 2 ^ k := by positivity
  have hscale : ∀ u, F32.dist u n (d * 2 ^ k) = F32.dist (u * 2 ^ k) n d := by
    intro u
    unfold F32.dist
    rw [show u * (d * 2 ^ k) = u * 2 ^ k * d by ring]
  have hne : F32.patUnits p ≠ F32.patUnits (F32.roundMag n d) :=
    fun he => hp (F32.patUnits_inj he)
  have heven : ∀ u, F32.patUnits p = u * 2 ^ k → F32.roundDiv n (d * 2 ^ k) % 2 = 0 := by
    intro u hu
    refine F32.roundDiv_tie hd2 (u := u) ?_ ?_
    · intro he
      rw [hu, he, ← hval] at hne
      exact hne rfl
    · rw [hscale, hscale, ← hu, ← hval]
      exact h
  have hpar : F32.roundDiv n (d * 2 ^ k) % 2 = 0 → F32.roundMag n d % 2 = 0 := by
    intro he
    rw [hr']
    omega
  rcases hk with hk | ⟨-, hn⟩
  · subst hk
    exact hpar (heven (F32.patUnits p) (by simp))
  · rcases Nat.lt_or_ge (F32.patUnits p) (2 ^ (23 + k)) with hlt | hge
    · exfalso
      have h1 := F32.roundDiv_nearest (n := n) hd2 (2 ^ 23)
      rw [hscale, hscale, ← hval, ← Nat.pow_add] at h1
      have h2 : F32.patUnits p * d < 2 ^ (23 + k) * d := Nat.mul_lt_mul_of_pos_right hlt hd
      unfold F32.dist at h h1
      omega
    · obtain ⟨u, hu⟩ := F32.patUnits_dvd hge
      exact hpar (heven u (by rw [hu, Nat.mul_comm]))

/-- A value a finite pattern stands for is kept. -/
theorem F32.roundMag_exact {d p : Nat} (hd : 0 < d) (hp : p < 0x7F800000) :
    F32.roundMag (F32.patUnits p * d) d = p := by
  have hq : F32.patUnits p * d / d = F32.patUnits p := Nat.mul_div_cancel _ hd
  obtain ⟨k, m, rfl, hm, hk⟩ := F32.exists_shift p
  have hkv : Nat.log2 (F32.patUnits (k * 2 ^ 23 + m)) - 23 = k := by
    rw [F32.patUnits_shift hm.le hk]
    rcases hk with hk | hk
    · subst hk
      rw [Nat.pow_zero, Nat.mul_one]
      rcases F32.shift_spec m with ⟨h, -⟩ | ⟨h, h1, -⟩
      · exact h
      · exfalso
        have : 2 ^ 24 ≤ 2 ^ (23 + (Nat.log2 m - 23)) :=
          Nat.pow_le_pow_right (by decide) (by omega)
        omega
    · have hpos : m * 2 ^ k ≠ 0 := by positivity
      have h1 : Nat.log2 (m * 2 ^ k) = 23 + k := by
        rw [Nat.log2_eq_iff hpos]
        constructor
        · rw [Nat.pow_add]
          exact Nat.mul_le_mul_right _ hk
        · rw [show 23 + k + 1 = 24 + k by omega, Nat.pow_add]
          exact Nat.mul_lt_mul_of_pos_right hm (by positivity)
      omega
  unfold F32.roundMag
  rw [hq]
  simp only [hkv]
  rw [F32.patUnits_shift hm.le hk, show m * 2 ^ k * d = m * (d * 2 ^ k) by ring,
    F32.roundDiv_exact (by positivity)]
  omega

/-- An upper bound that a finite pattern stands for is one on the rounded pattern. -/
theorem F32.roundMag_le {n d p : Nat} (hd : 0 < d) (h : n ≤ F32.patUnits p * d) :
    F32.roundMag n d ≤ p := by
  obtain ⟨k, hr, hm, hk⟩ := F32.roundMag_shift (n := n) hd
  have hle : k * 2 ^ 23 + F32.roundDiv n (d * 2 ^ k) ≤ p := by
    rw [← F32.patUnits_le_iff, F32.patUnits_shift hm (hk.imp_right And.left)]
    rcases hk with hk | ⟨-, hn⟩
    · subst hk
      rw [Nat.pow_zero, Nat.mul_one, Nat.mul_one]
      exact F32.roundDiv_le hd h
    · have hp : 2 ^ (23 + k) ≤ F32.patUnits p := by
        by_contra hc
        have h1 : F32.patUnits p * d < 2 ^ (23 + k) * d :=
          Nat.mul_lt_mul_of_pos_right (Nat.lt_of_not_le hc) hd
        omega
      obtain ⟨u, hu⟩ := F32.patUnits_dvd hp
      rw [hu, Nat.mul_comm (2 ^ k) u]
      apply Nat.mul_le_mul_right
      apply F32.roundDiv_le (by positivity)
      rw [hu] at h
      calc n ≤ 2 ^ k * u * d := h
        _ = u * (d * 2 ^ k) := by ring
  omega

/-- A lower bound that a finite pattern stands for is one on the rounded pattern. -/
theorem F32.le_roundMag {n d p : Nat} (hd : 0 < d) (hp : p < 0x7F800000)
    (h : F32.patUnits p * d ≤ n) : p ≤ F32.roundMag n d := by
  by_contra hc
  have hlt : F32.roundMag n d < p := Nat.lt_of_not_le hc
  have h1 := F32.roundMag_nearest hd (by omega) (n := n) p
  have h2 := F32.patUnits_strictMono hlt
  have h3 : F32.patUnits (F32.roundMag n d) * d < F32.patUnits p * d :=
    Nat.mul_lt_mul_of_pos_right h2 hd
  unfold F32.dist at h1
  omega

/-! ## The operations -/

@[simp] theorem F32.mag_neg (x : Num32) : F32.mag (F32.neg x) = F32.mag x := by
  unfold F32.mag F32.neg
  rw [BitVec.toNat_xor, show (2 : Nat) ^ 31 = 2 ^ 31 from rfl, Nat.xor_mod_two_pow]
  simp

@[simp] theorem F32.sign_neg (x : Num32) : F32.sign (F32.neg x) = !F32.sign x := by
  unfold F32.sign F32.neg
  rw [BitVec.msb_xor, show (0x80000000#32).msb = true from by decide, Bool.xor_true]

/-- Changing the sign twice changes nothing. -/
@[simp] theorem F32.neg_neg (x : Num32) : F32.neg (F32.neg x) = x := by
  unfold F32.neg
  simp

@[simp] theorem F32.magUnits_neg (x : Num32) : F32.magUnits (F32.neg x) = F32.magUnits x := by
  unfold F32.magUnits
  rw [F32.mag_neg]

@[simp] theorem F32.isFinite_neg (x : Num32) : F32.isFinite (F32.neg x) = F32.isFinite x := by
  unfold F32.isFinite
  rw [F32.mag_neg]

@[simp] theorem F32.units_neg (x : Num32) : F32.units (F32.neg x) = -F32.units x := by
  unfold F32.units
  rw [F32.magUnits_neg, F32.sign_neg]
  cases F32.sign x <;> simp

/-- The magnitude a packed pattern stands for. -/
@[simp] theorem F32.magUnits_pack (neg : Bool) {m : Nat} (h : m < 2 ^ 31) :
    F32.magUnits (F32.pack neg m) = F32.patUnits m := by
  unfold F32.magUnits
  rw [F32.mag_pack neg h]

/-- The value of a packed pattern. -/
theorem F32.units_pack (neg : Bool) {m : Nat} (h : m < 2 ^ 31) :
    F32.units (F32.pack neg m) = if neg then -(F32.patUnits m : Int) else F32.patUnits m := by
  unfold F32.units
  rw [F32.sign_pack neg h, F32.magUnits_pack neg h]

/-- A value below 2^277 (2^128 in units of 2^-149) that is a 24-bit number times a power of two is a pattern's. -/
theorem F32.exists_pattern {u m k : Nat} (hu : u = m * 2 ^ k) (hm : m < 2 ^ 24)
    (hlt : u < 2 ^ 23 * 2 ^ 254) : ∃ p, p < 0x7F800000 ∧ F32.patUnits p = u := by
  rcases Nat.eq_zero_or_pos m with h0 | h0
  · exact ⟨0, by decide, by subst h0; simp [hu, F32.patUnits]⟩
  · have hl1 : 2 ^ Nat.log2 m ≤ m := Nat.log2_self_le (by omega)
    have hl2 : m < 2 ^ (Nat.log2 m + 1) := Nat.lt_log2_self
    have hl : Nat.log2 m < 24 := by
      by_contra hc
      have : 2 ^ 24 ≤ 2 ^ Nat.log2 m := Nat.pow_le_pow_right (by decide) (by omega)
      omega
    rcases Nat.lt_or_ge (Nat.log2 m + k) 24 with hs | hs
    · refine ⟨u, ?_, ?_⟩
      · have : u < 2 ^ 24 := by
          calc u = m * 2 ^ k := hu
            _ < 2 ^ (Nat.log2 m + 1) * 2 ^ k := Nat.mul_lt_mul_of_pos_right hl2 (by positivity)
            _ = 2 ^ (Nat.log2 m + 1 + k) := (Nat.pow_add _ _ _).symm
            _ ≤ 2 ^ 24 := Nat.pow_le_pow_right (by decide) (by omega)
        omega
      · apply F32.patUnits_small
        calc u = m * 2 ^ k := hu
          _ < 2 ^ (Nat.log2 m + 1) * 2 ^ k := Nat.mul_lt_mul_of_pos_right hl2 (by positivity)
          _ = 2 ^ (Nat.log2 m + 1 + k) := (Nat.pow_add _ _ _).symm
          _ ≤ 2 ^ 24 := Nat.pow_le_pow_right (by decide) (by omega)
    · obtain ⟨j, hj⟩ : ∃ j, Nat.log2 m + j = 23 := ⟨23 - Nat.log2 m, by omega⟩
      have hjk : j ≤ k := by omega
      have h23 : 2 ^ 23 ≤ m * 2 ^ j := by
        rw [← hj, Nat.pow_add]
        exact Nat.mul_le_mul_right _ hl1
      have h24 : m * 2 ^ j < 2 ^ 24 := by
        calc m * 2 ^ j < 2 ^ (Nat.log2 m + 1) * 2 ^ j :=
              Nat.mul_lt_mul_of_pos_right hl2 (by positivity)
          _ = 2 ^ (Nat.log2 m + j + 1) := by rw [← Nat.pow_add]; congr 1; omega
          _ = 2 ^ 24 := by rw [hj]
      have hval : m * 2 ^ j * 2 ^ (k - j) = u := by
        rw [hu, Nat.mul_assoc, ← Nat.pow_add, Nat.add_sub_cancel' hjk]
      refine ⟨(k - j) * 2 ^ 23 + m * 2 ^ j, ?_, ?_⟩
      · have hkj : k - j < 254 := by
          by_contra hc
          have h1 : 2 ^ 254 ≤ 2 ^ (k - j) := Nat.pow_le_pow_right (by decide) (by omega)
          have h2 : 2 ^ 23 * 2 ^ 254 ≤ m * 2 ^ j * 2 ^ (k - j) := Nat.mul_le_mul h23 h1
          rw [hval] at h2
          exact absurd hlt (Nat.not_lt.mpr h2)
        omega
      · rw [F32.patUnits_shift h24.le (.inr h23), hval]

end Sys2Proof.Machine
end

