-- ==== Sys2Proof/Laws/Mix.lean ====
section
/-! SUPPORT. What the mixers and one frame do (43_phase_waveform.md, 40_synth.md R104), once. -/

namespace Sys2Proof.Machine

/-- Any slot after `PHADV(i)` (R156). -/
theorem phadv_voice (i j : Fin 4) (s : State) :
    (phadv i s).voice j =
      if j = i then { s.voice i with phase := nextPhase (s.voice i).phase (s.voice i).inc }
      else s.voice j :=
  State.voice_putVoice _ _ _ _

/-- `PHADV` writes the voice file only. -/
theorem phadv_frame (i : Fin 4) (s : State) :
    (phadv i s).mode = s.mode ∧ (phadv i s).driveAmount = s.driveAmount ∧
    (phadv i s).detuneAmount = s.detuneAmount ∧ (phadv i s).voiceCount = s.voiceCount ∧
    (phadv i s).nextSlot = s.nextSlot ∧ (phadv i s).lastNoteSeen = s.lastNoteSeen ∧
    (phadv i s).cmdReady = s.cmdReady ∧ (phadv i s).smpValid = s.smpValid ∧
    (phadv i s).cmds = s.cmds ∧ (phadv i s).smp = s.smp ∧ (phadv i s).draws = s.draws :=
  ⟨rfl, rfl, rfl, rfl, rfl, rfl, rfl, rfl, rfl, rfl, rfl⟩

/-- The state a frame's mix leaves: every active slot's phase advanced once, and nothing else (R153 d). -/
def advanceAll (s : State) : State := s.activeSlots.foldl (fun t i => phadv i t) s

/-- What advancing the phases never writes. -/
theorem advanceAll_frame (s : State) :
    (advanceAll s).mode = s.mode ∧ (advanceAll s).driveAmount = s.driveAmount ∧
    (advanceAll s).detuneAmount = s.detuneAmount ∧ (advanceAll s).voiceCount = s.voiceCount ∧
    (advanceAll s).nextSlot = s.nextSlot ∧ (advanceAll s).lastNoteSeen = s.lastNoteSeen ∧
    (advanceAll s).cmdReady = s.cmdReady ∧ (advanceAll s).smpValid = s.smpValid ∧
    (advanceAll s).cmds = s.cmds ∧ (advanceAll s).smp = s.smp ∧
    (advanceAll s).draws = s.draws :=
  foldl_keeps
    (P := fun t => t.mode = s.mode ∧ t.driveAmount = s.driveAmount ∧
      t.detuneAmount = s.detuneAmount ∧ t.voiceCount = s.voiceCount ∧ t.nextSlot = s.nextSlot ∧
      t.lastNoteSeen = s.lastNoteSeen ∧ t.cmdReady = s.cmdReady ∧ t.smpValid = s.smpValid ∧
      t.cmds = s.cmds ∧ t.smp = s.smp ∧ t.draws = s.draws)
    (fun t i => phadv i t) s.activeSlots s
    ⟨rfl, rfl, rfl, rfl, rfl, rfl, rfl, rfl, rfl, rfl, rfl⟩ (by intro _ _ h; exact h)

/-- The slots after advancing the phases. -/
theorem advanceAll_voice (s : State) (i : Fin 4) :
    (advanceAll s).voice i =
      if i.val < s.voiceCount.toNat then
        { s.voice i with phase := nextPhase (s.voice i).phase (s.voice i).inc }
      else s.voice i := by
  unfold advanceAll
  obtain ⟨hn, hl⟩ | ⟨hn, hl⟩ | ⟨hn, hl⟩ | ⟨hn, hl⟩ | ⟨hn, hl⟩ := s.activeSlots_cases
  all_goals rw [hl]
  · simp [hn]
  · match i with
    | 0 | 1 | 2 | 3 => simp [hn, phadv_voice]
  · match i with
    | 0 | 1 | 2 | 3 => simp [hn, phadv_voice]
  · match i with
    | 0 | 1 | 2 | 3 => simp [hn, phadv_voice]
  · rw [if_pos (show i.val < s.voiceCount.toNat by omega)]
    match i with
    | 0 | 1 | 2 | 3 => simp [phadv_voice]

/-- `MIX.ADD` is the sum over the phases as they stand, and all phases advanced (R152, R153 d). -/
theorem mixAdd_eq (c : Cfg) (s : State) :
    mixAdd c s =
      (s.activeSlots.foldl (fun sig i =>
        F32.add sig (F32.mul Config.mixWeight
          (c.blSaw (s.voice i).phase (s.voice i).wti))) F32.zero, advanceAll s) := by
  unfold mixAdd advanceAll
  obtain ⟨-, hl⟩ | ⟨-, hl⟩ | ⟨-, hl⟩ | ⟨-, hl⟩ | ⟨-, hl⟩ := s.activeSlots_cases
  all_goals rw [hl]; simp [mixAddVoice, phadv_voice]

/-- `MIX.RING` is the product over the phases as they stand, and all phases advanced (R154). -/
theorem mixRing_eq (c : Cfg) (s : State) :
    mixRing c s =
      (s.activeSlots.foldl (fun sig i =>
        F32.mul sig (c.blSqr (s.voice i).phase (s.voice i).wti)) Config.ringSeed,
        advanceAll s) := by
  unfold mixRing advanceAll
  obtain ⟨-, hl⟩ | ⟨-, hl⟩ | ⟨-, hl⟩ | ⟨-, hl⟩ | ⟨-, hl⟩ := s.activeSlots_cases
  all_goals rw [hl]; simp [mixRingVoice, phadv_voice]

/-- The mix of the next frame, and the state it leaves. -/
theorem mix_eq (c : Cfg) (s : State) : mix c s = (mixAt c s 0, advanceAll s) := by
  unfold mix mixAt
  cases combination s.mode with
  | additive => exact mixAdd_eq c s
  | ring => exact mixRing_eq c s

/-- One frame: the word of the mix is emitted, and every active phase advanced (40_synth.md R104). -/
theorem frame_eq (c : Cfg) (last : Bool) (s : State) :
    frame c last s =
      (advanceAll s).emit (c.toFixed (drive c s.driveAmount (mixAt c s 0))) last := by
  unfold frame conv
  rw [mix_eq]

/-- The phase of a voice one frame on. -/
theorem phaseAfter_advanced (v : Voice) (k : Nat) :
    phaseAfter { v with phase := nextPhase v.phase v.inc } k = phaseAfter v (k + 1) := by
  induction k with
  | zero => rfl
  | succ k ih =>
    show nextPhase (phaseAfter { v with phase := nextPhase v.phase v.inc } k) v.inc = _
    rw [ih]
    rfl

end Sys2Proof.Machine
end

