-- ==== Sys2Proof/Laws/PerInstr.lean ====
section
/-! SUPPORT. Facts about each operation as encoded, one lemma per constructor. -/

namespace Sys2Proof.Laws.OpField

/-- The major opcode of each operation (30_encoding.md R73): 0 INIT, 1 SYNTH, 2 NOTEON, 3 NOTEOFF,
4 SETP. -/
def number : Instr → BitVec 4
  | .init _ _ => 0#4
  | .synth _ _ _ => 1#4
  | .noteOn _ => 2#4
  | .noteOff _ => 3#4
  | .setpMode _ => 4#4
  | .setpDrive _ => 4#4
  | .setpDetune _ => 4#4
  | .setpAux _ => 4#4

/-- The word of the operation carries its major opcode in bits 31:28 (R73). -/
def Statement (i : Instr) : Prop := opField (encode i) = number i

theorem init (plat : BitVec 12) (api : BitVec 16) : Statement (.init plat api) :=
  opField_formatZ 0#4 plat api

theorem synth (note mod : BitVec 8) (frames : BitVec 12) : Statement (.synth note mod frames) :=
  opField_formatS 1#4 frames note mod

theorem noteOn (np : BitVec 28) : Statement (.noteOn np) := opField_formatN 2#4 np

theorem noteOff (np : BitVec 28) : Statement (.noteOff np) := opField_formatN 3#4 np

theorem setpMode (value : BitVec 16) : Statement (.setpMode value) :=
  opField_formatP 4#4 0#4 0#8 value

theorem setpDrive (value : BitVec 16) : Statement (.setpDrive value) :=
  opField_formatP 4#4 0#4 1#8 value

theorem setpDetune (value : BitVec 16) : Statement (.setpDetune value) :=
  opField_formatP 4#4 0#4 2#8 value

theorem setpAux (value : BitVec 16) : Statement (.setpAux value) :=
  opField_formatP 4#4 0#4 3#8 value

end Sys2Proof.Laws.OpField
end

