-- ==== Sys2Proof/Laws/Primitives.lean ====
section
/-! SUPPORT. What the order of finite numbers is, what each port keeps, and which fields `Cfg.conform`
leaves alone. -/

namespace Sys2Proof

open Sys2Proof.Machine

namespace Machine

/-! ## The order of finite numbers -/

theorem F32.isNaN_of_finite {x : Num32} (h : F32.isFinite x = true) : F32.isNaN x = false := by
  rw [F32.isFinite_iff] at h
  unfold F32.isNaN
  exact decide_eq_false (by omega)

/-- Places are ordered as the values they stand for, the zeros sharing one. -/
theorem F32.place_le_iff (x y : Num32) : F32.place x ≤ F32.place y ↔ F32.units x ≤ F32.units y := by
  have h1 := @F32.patUnits_le_iff (F32.mag x) (F32.mag y)
  have h2 := @F32.patUnits_le_iff (F32.mag y) (F32.mag x)
  have hx := @F32.patUnits_le_iff (F32.mag x) 0
  have hy := @F32.patUnits_le_iff (F32.mag y) 0
  have h0 : F32.patUnits 0 = 0 := by decide
  rw [h0] at hx hy
  unfold F32.place F32.units F32.magUnits
  cases F32.sign x <;> cases F32.sign y <;> simp <;> omega

/-- `a ≤ b` on finite numbers. -/
theorem F32.le_iff {a b : Num32} (ha : F32.isFinite a = true) (hb : F32.isFinite b = true) :
    F32.le a b = true ↔ F32.units a ≤ F32.units b := by
  unfold F32.le
  rw [F32.isNaN_of_finite ha, F32.isNaN_of_finite hb]
  simpa using F32.place_le_iff a b

/-- `a < b` on finite numbers. -/
theorem F32.lt_iff {a b : Num32} (ha : F32.isFinite a = true) (hb : F32.isFinite b = true) :
    F32.lt a b = true ↔ F32.units a < F32.units b := by
  unfold F32.lt
  rw [F32.isNaN_of_finite ha, F32.isNaN_of_finite hb]
  have := F32.place_le_iff b a
  simp only [Bool.not_false, Bool.true_and, decide_eq_true_eq]
  omega

/-! ## The ports -/

theorem Prim.finite_isFinite (v : Num32) : F32.isFinite (Prim.finite v) = true := by
  unfold Prim.finite
  split
  · assumption
  · decide

/-- A port that keeps a finite result leaves a finite result alone. -/
theorem Prim.finite_eq {v : Num32} (h : F32.isFinite v = true) : Prim.finite v = v := if_pos h

theorem Prim.signedUnit_inSignedUnit (v : Num32) : F32.inSignedUnit (Prim.signedUnit v) = true := by
  unfold Prim.signedUnit
  split
  · assumption
  · decide

theorem Prim.positive_spec (v : Num32) :
    F32.isFinite (Prim.positive v) = true ∧ 0 < F32.units (Prim.positive v) := by
  unfold Prim.positive
  split
  · next h => simpa using h
  · decide +kernel

/-- Everything a clip to [0, 1] can do. -/
theorem Prim.clip01_cases (f : Num32 → Num32) (v : Num32) :
    (F32.le v F32.zero = true ∧ Prim.clip01 f v = F32.zero) ∨
    (F32.le v F32.zero = false ∧ F32.le F32.one v = true ∧ Prim.clip01 f v = F32.one) ∨
    (F32.le v F32.zero = false ∧ F32.le F32.one v = false ∧
      ((F32.inUnit (f v) = true ∧ Prim.clip01 f v = f v) ∨
        (F32.inUnit (f v) = false ∧ F32.isFinite v = true ∧ Prim.clip01 f v = v) ∨
        (F32.isFinite v = false ∧ Prim.clip01 f v = F32.zero ∧ F32.inUnit (f v) = false))) := by
  unfold Prim.clip01
  cases F32.le v F32.zero <;> cases F32.le F32.one v <;> cases F32.inUnit (f v) <;>
    cases F32.isFinite v <;> simp

/-- A clip to [0, 1] gives a value there. -/
theorem Prim.clip01_inUnit (f : Num32 → Num32) (v : Num32) : F32.inUnit (Prim.clip01 f v) = true := by
  obtain ⟨-, h⟩ | ⟨-, -, h⟩ | ⟨h0, h1, ⟨hu, h⟩ | ⟨-, hv, h⟩ | ⟨-, h, -⟩⟩ := Prim.clip01_cases f v
  · rw [h]
    decide +kernel
  · rw [h]
    decide +kernel
  · rw [h]
    exact hu
  · rw [h]
    have k0 := F32.le_iff hv (show F32.isFinite F32.zero = true by decide)
    have k1 := F32.le_iff (show F32.isFinite F32.one = true by decide) hv
    rw [h0] at k0
    rw [h1] at k1
    have z0 : F32.units F32.zero = 0 := by decide +kernel
    have z1 : F32.units F32.one = (F32.oneUnits : Int) := by decide +kernel
    rw [z0] at k0
    rw [z1] at k1
    have k0' : ¬ F32.units v ≤ 0 := fun hc => absurd (k0.mpr hc) (by decide)
    have k1' : ¬ (F32.oneUnits : Int) ≤ F32.units v := fun hc => absurd (k1.mpr hc) (by decide)
    unfold F32.inUnit
    simp only [hv, Bool.true_and, Bool.and_eq_true, decide_eq_true_eq]
    omega
  · rw [h]
    decide +kernel

/-- Everything a clip to a hard maximum can do to finite operands. -/
theorem Prim.clipMax_cases (f : Num32 → Num32 → Num32) {v m : Num32} (hv : F32.isFinite v = true)
    (hm : F32.isFinite m = true) :
    (F32.units m ≤ F32.units v ∧ Prim.clipMax f v m = m) ∨
    (F32.units v < F32.units m ∧ F32.units v < 0 ∧ Prim.clipMax f v m = v) ∨
    (F32.units v < F32.units m ∧ 0 ≤ F32.units v ∧
      Prim.clipMax f v m = if F32.le (f v m) m then f v m else v) := by
  have k1 := F32.le_iff hm hv
  have k2 := F32.lt_iff hv (show F32.isFinite F32.zero = true by decide)
  have z0 : F32.units F32.zero = 0 := by decide +kernel
  rw [z0] at k2
  unfold Prim.clipMax
  rw [hv, hm, Bool.and_self, if_pos rfl]
  by_cases h1 : F32.units m ≤ F32.units v
  · exact .inl ⟨h1, if_pos (k1.mpr h1)⟩
  · rw [if_neg (fun hc => h1 (k1.mp hc))]
    by_cases h2 : F32.units v < 0
    · exact .inr (.inl ⟨by omega, h2, if_pos (k2.mpr h2)⟩)
    · exact .inr (.inr ⟨by omega, by omega, if_neg (fun hc => h2 (k2.mp hc))⟩)

end Machine

/-! ## The fields `Cfg.conform` leaves alone -/

@[simp] theorem Cfg.conform_srRecip (c : Cfg) : c.conform.srRecip = c.srRecip := rfl
@[simp] theorem Cfg.conform_fMax (c : Cfg) : c.conform.fMax = c.fMax := rfl
@[simp] theorem Cfg.conform_noteModScale (c : Cfg) : c.conform.noteModScale = c.noteModScale := rfl
@[simp] theorem Cfg.conform_ditherScale (c : Cfg) : c.conform.ditherScale = c.ditherScale := rfl
@[simp] theorem Cfg.conform_noteHz (c : Cfg) : c.conform.noteHz = c.noteHz := rfl
@[simp] theorem Cfg.conform_sawIdx (c : Cfg) : c.conform.sawIdx = c.sawIdx := rfl
@[simp] theorem Cfg.conform_sqrIdx (c : Cfg) : c.conform.sqrIdx = c.sqrIdx := rfl
@[simp] theorem Cfg.conform_lerp (c : Cfg) : c.conform.lerp = c.lerp := rfl
@[simp] theorem Cfg.conform_paramToFloat (c : Cfg) : c.conform.paramToFloat = c.paramToFloat := rfl

/-! ## The fields it makes keep a rule -/

@[simp] theorem Cfg.conform_paramScale (c : Cfg) :
    c.conform.paramScale = Prim.positive c.paramScale := rfl
@[simp] theorem Cfg.conform_blSaw (c : Cfg) (p x : Num32) :
    c.conform.blSaw p x = Prim.finite (c.blSaw p x) := rfl
@[simp] theorem Cfg.conform_blSqr (c : Cfg) (p x : Num32) :
    c.conform.blSqr p x = Prim.finite (c.blSqr p x) := rfl
@[simp] theorem Cfg.conform_softClip (c : Cfg) : c.conform.softClip = Prim.softClip c.softClip := rfl
@[simp] theorem Cfg.conform_clipMax (c : Cfg) : c.conform.clipMax = Prim.clipMax c.clipMax := rfl
@[simp] theorem Cfg.conform_clip01 (c : Cfg) : c.conform.clip01 = Prim.clip01 c.clip01 := rfl
@[simp] theorem Cfg.conform_toFixed (c : Cfg) : c.conform.toFixed = Prim.toFixed c.toFixed := rfl
@[simp] theorem Cfg.conform_noise (c : Cfg) (n : Nat) :
    c.conform.noise n = Prim.signedUnit (c.noise n) := rfl

end Sys2Proof
end

