-- ==== Sys2Proof/Laws/Resolve.lean ====
section
/-! SUPPORT. What the resolver stage does (42_resolver.md), once. -/

namespace Sys2Proof.Machine

/-- Any slot after one trip of the loop. -/
theorem resolveVoice_voice (c : Cfg) (mod : BitVec 8) (s : State) (i j : Fin 4) :
    (resolveVoice c mod s i).voice j =
      if j = i then
        { s.voice i with
          inc := resolvedInc c mod s.detuneAmount i (s.voice i).note (c.noise s.draws) }
      else s.voice j := by
  unfold resolveVoice
  rw [State.voice_putVoice]
  rfl

/-- What one trip leaves, and the draw it takes. -/
theorem resolveVoice_frame (c : Cfg) (mod : BitVec 8) (s : State) (i : Fin 4) :
    (resolveVoice c mod s i).mode = s.mode ∧
    (resolveVoice c mod s i).driveAmount = s.driveAmount ∧
    (resolveVoice c mod s i).detuneAmount = s.detuneAmount ∧
    (resolveVoice c mod s i).voiceCount = s.voiceCount ∧
    (resolveVoice c mod s i).nextSlot = s.nextSlot ∧
    (resolveVoice c mod s i).lastNoteSeen = s.lastNoteSeen ∧
    (resolveVoice c mod s i).cmdReady = s.cmdReady ∧
    (resolveVoice c mod s i).smpValid = s.smpValid ∧
    (resolveVoice c mod s i).cmds = s.cmds ∧
    (resolveVoice c mod s i).smp = s.smp ∧
    (resolveVoice c mod s i).draws = s.draws + 1 :=
  ⟨rfl, rfl, rfl, rfl, rfl, rfl, rfl, rfl, rfl, rfl, rfl⟩

@[simp] theorem resolveVoice_draws (c : Cfg) (mod : BitVec 8) (s : State) (i : Fin 4) :
    (resolveVoice c mod s i).draws = s.draws + 1 := rfl
@[simp] theorem resolveVoice_detuneAmount (c : Cfg) (mod : BitVec 8) (s : State) (i : Fin 4) :
    (resolveVoice c mod s i).detuneAmount = s.detuneAmount := rfl

/-- What the stage never writes (R130). -/
theorem resolve_frame (c : Cfg) (mod : BitVec 8) (s : State) :
    (resolve c mod s).mode = s.mode ∧ (resolve c mod s).driveAmount = s.driveAmount ∧
    (resolve c mod s).detuneAmount = s.detuneAmount ∧
    (resolve c mod s).voiceCount = s.voiceCount ∧ (resolve c mod s).nextSlot = s.nextSlot ∧
    (resolve c mod s).lastNoteSeen = s.lastNoteSeen ∧ (resolve c mod s).cmdReady = s.cmdReady ∧
    (resolve c mod s).smpValid = s.smpValid ∧ (resolve c mod s).cmds = s.cmds ∧
    (resolve c mod s).smp = s.smp :=
  foldl_keeps
    (P := fun t => t.mode = s.mode ∧ t.driveAmount = s.driveAmount ∧
      t.detuneAmount = s.detuneAmount ∧ t.voiceCount = s.voiceCount ∧ t.nextSlot = s.nextSlot ∧
      t.lastNoteSeen = s.lastNoteSeen ∧ t.cmdReady = s.cmdReady ∧ t.smpValid = s.smpValid ∧
      t.cmds = s.cmds ∧ t.smp = s.smp)
    (resolveVoice c mod) s.activeSlots s
    ⟨rfl, rfl, rfl, rfl, rfl, rfl, rfl, rfl, rfl, rfl⟩ (by intro _ _ h; exact h)

/-- The stage on the slots and on the draws: every active slot `i` gets the increment of its note with the
draw number `i` from here, and as many draws are taken as slots are active (R130, R136). -/
theorem resolve_spec (c : Cfg) (mod : BitVec 8) (s : State) :
    (resolve c mod s).draws = s.draws + min s.voiceCount.toNat 4 ∧
    ∀ i : Fin 4, (resolve c mod s).voice i =
      if i.val < s.voiceCount.toNat then
        { s.voice i with
          inc := resolvedInc c mod s.detuneAmount i (s.voice i).note
            (c.noise (s.draws + i.val)) }
      else s.voice i := by
  unfold resolve
  obtain ⟨hn, hl⟩ | ⟨hn, hl⟩ | ⟨hn, hl⟩ | ⟨hn, hl⟩ | ⟨hn, hl⟩ := s.activeSlots_cases
  all_goals
    rw [hl]
    refine ⟨?_, fun i => ?_⟩
  · simp [hn]
  · simp [hn]
  · simp [hn]
  · match i with
    | 0 | 1 | 2 | 3 => simp [hn, resolveVoice_voice]
  · simp [hn]
  · match i with
    | 0 | 1 | 2 | 3 => simp [hn, resolveVoice_voice]
  · simp [hn]
  · match i with
    | 0 | 1 | 2 | 3 => simp [hn, resolveVoice_voice]
  · simp [Nat.min_eq_right hn]
  · rw [if_pos (show i.val < s.voiceCount.toNat by omega)]
    match i with
    | 0 | 1 | 2 | 3 => simp [resolveVoice_voice, Nat.add_assoc]

end Sys2Proof.Machine
end

