-- ==== Sys2Proof/Laws/Step.lean ====
section
/-! SUPPORT. What a step can do, once. -/

namespace Sys2Proof.Machine

/-- A word is transferred exactly where the engine is ready and the host has one (20_memory.md R52). -/
theorem State.transfer_some (s : State) (w : CmdWord) (t : State) :
    s.transfer = some (w, t) ↔
      s.cmdReady = true ∧ s.cmds = w :: t.cmds ∧
        t = { s with cmds := t.cmds, cmdReady := false } := by
  unfold State.transfer
  constructor
  · intro h
    split at h
    · next v rest hr hc =>
      obtain ⟨rfl, rfl⟩ : v = w ∧ { s with cmds := rest, cmdReady := false } = t := by
        simpa using h
      exact ⟨hr, hc, rfl⟩
    · cases h
    · cases h
  · rintro ⟨hr, hc, ht⟩
    rw [hr, hc]
    simp only [Option.some.injEq, Prod.mk.injEq, true_and]
    exact ht.symm

/-- No word is transferred exactly where the engine is not ready or the host has none. -/
theorem State.transfer_none (s : State) :
    s.transfer = none ↔ s.cmdReady = false ∨ s.cmds = [] := by
  unfold State.transfer
  split <;> simp_all

/-- Everything a step can do: stay idle, run a decoded operation between the transfer of its word and its
completion, or drop a reserved word. -/
theorem step_cases {s t : State} (h : step s = .next t) :
    (s.transfer = none ∧ t = s) ∨
    (∃ w u i v, s.transfer = some (w, u) ∧ decode w = .operation i ∧ exec i u = .next v ∧
      t = v.complete) ∨
    (∃ w u r, s.transfer = some (w, u) ∧ decode w = .reserved r ∧ t = u.complete) := by
  unfold step at h
  split at h
  · next ht =>
    left
    cases h
    exact ⟨ht, rfl⟩
  · next w u ht =>
    right
    split at h
    · next i hd =>
      left
      split at h
      · next v hv =>
        cases h
        exact ⟨w, u, i, v, ht, hd, hv, rfl⟩
      · cases h
      · cases h
    · next r hd =>
      right
      cases h
      exact ⟨w, u, r, ht, hd, rfl⟩

/-! Each operation's answer, by name of its meaning. -/

theorem exec_init (plat : BitVec 12) (api : BitVec 16) (s : State) :
    exec (.init plat api) s = .next s.zeroRegisters := rfl

theorem exec_synth (note mod : BitVec 8) (frames : BitVec 12) (s : State) :
    exec (.synth note mod frames) s = .next (synth Config.cfg note mod frames s) := rfl

theorem exec_setpMode (v : BitVec 16) (s : State) :
    exec (.setpMode v) s = .next { s with mode := (modeOfValue v).getD s.mode } := by
  show execSetpMode v s = _
  unfold execSetpMode
  cases modeOfValue v <;> rfl

end Sys2Proof.Machine
end

