-- ==== Sys2Proof/Laws/Synth.lean ====
section
/-! SUPPORT. What the control update of a `SYNTH` leaves and what it does to the slots (40_synth.md R102). -/

namespace Sys2Proof.Machine

/-- What the control update never writes. -/
theorem controlUpdate_frame (c : Cfg) (note mod : BitVec 8) (s : State) :
    (controlUpdate c note mod s).mode = s.mode ∧
    (controlUpdate c note mod s).driveAmount = s.driveAmount ∧
    (controlUpdate c note mod s).detuneAmount = s.detuneAmount ∧
    (controlUpdate c note mod s).cmdReady = s.cmdReady ∧
    (controlUpdate c note mod s).cmds = s.cmds ∧
    (controlUpdate c note mod s).smp = s.smp := by
  obtain ⟨a1, a2, a3, a4, -, a6, a7, -⟩ := alloc_frame c note s
  obtain ⟨r1, r2, r3, -, -, -, r7, -, r9, r10⟩ := resolve_frame c mod (alloc c note s)
  unfold controlUpdate
  simp [*]

/-- The control update allocates; the resolver writes none of what the allocator decides. -/
theorem controlUpdate_alloc (c : Cfg) (note mod : BitVec 8) (s : State) :
    (controlUpdate c note mod s).voiceCount = (alloc c note s).voiceCount ∧
    (controlUpdate c note mod s).nextSlot = (alloc c note s).nextSlot ∧
    (controlUpdate c note mod s).lastNoteSeen = (alloc c note s).lastNoteSeen ∧
    ∀ i : Fin 4,
      ((controlUpdate c note mod s).voice i).note = ((alloc c note s).voice i).note ∧
      ((controlUpdate c note mod s).voice i).wti = ((alloc c note s).voice i).wti := by
  obtain ⟨-, -, -, r4, r5, r6, -⟩ := resolve_frame c mod (alloc c note s)
  refine ⟨r4, r5, r6, fun i => ?_⟩
  unfold controlUpdate
  rw [(resolve_spec c mod (alloc c note s)).2 i]
  split <;> exact ⟨rfl, rfl⟩

/-- The control update moves no phase (40_synth.md R105). -/
theorem controlUpdate_phase (c : Cfg) (note mod : BitVec 8) (s : State) (i : Fin 4) :
    ((controlUpdate c note mod s).voice i).phase = (s.voice i).phase := by
  unfold controlUpdate
  rw [(resolve_spec c mod (alloc c note s)).2 i, ← (alloc_phase_inc c note s i).1]
  split <;> rfl

end Sys2Proof.Machine
end

