-- ==== Sys2Proof/Tests/Tc1.lean ====
section
/-! SUPPORT. The test configuration TC1 of 95_test_vectors.md section 2, and small states for the tests.
TC1 is a stand-in and says nothing about the real platform. -/

namespace Sys2Proof.Tests

open Sys2Proof.Machine

/-- `blSqr` of TC1: 0 at 0 and 0.5, +1 between, -1 above 0.5. -/
def tc1Square (p : Num32) : Num32 :=
  if F32.magUnits p = 0 then F32.zero
  else if F32.magUnits p < 2 ^ 148 then F32.one
  else if F32.magUnits p = 2 ^ 148 then F32.zero
  else F32.neg F32.one

/-- TC1 with the draws of a vector, in the order `RESOLVE` takes them. -/
def tc1 (draws : List Num32) : Cfg where
  sampleRate := 0x47800000#32
  srRecip := 0x37800000#32
  fMax := 0x47000000#32
  noteModScale := 0x3B800000#32
  ditherScale := 0x37000000#32
  paramScale := 0x3A800000#32
  noteHz := fun n => F32.ofNat (256 * n.toNat)
  sawIdx := fun n => F32.mul (F32.ofNat n.toNat) 0x3D800000#32
  sqrIdx := fun n => F32.mul (F32.ofNat n.toNat) 0x3D000000#32
  blSaw := fun p _ => F32.sub (F32.mul 0x40000000#32 p) F32.one
  blSqr := fun p _ => tc1Square p
  softClip := Rc0.softClip
  lerp := Rc0.lerp
  clipMax := Rc0.clipMax
  clip01 := Rc0.clip01
  paramToFloat := Rc0.paramToFloat 0x3A800000#32
  toFixed := Rc0.toFixed
  noise := fun n => draws.getD n 0#32

/-- A voice slot with a note, a phase and an increment. -/
def slot (note : BitVec 9) (phase inc : Num32) : Voice :=
  { note := note, wti := 0#32, phase := phase, inc := inc }

/-- A state with `mode`, `voiceCount`, `nextSlot`, `lastNoteSeen` and the four slots; the rest as after
reset. -/
def engine (m : Mode) (count : BitVec 3) (next : BitVec 2) (last : BitVec 8) (a b c d : Voice) : State :=
  { State.reset with
    mode := m, voiceCount := count, nextSlot := next, lastNoteSeen := last
    voices := { v0 := a, v1 := b, v2 := c, v3 := d } }

/-- The notes of the four slots. -/
def notes (s : State) : List Nat := [0, 1, 2, 3].map (fun i : Fin 4 => (s.voice i).note.toNat)

/-- The table indices of the four slots. -/
def indices (s : State) : List Num32 := [0, 1, 2, 3].map (fun i : Fin 4 => (s.voice i).wti)

/-- The phases of the four slots. -/
def phases (s : State) : List Num32 := [0, 1, 2, 3].map (fun i : Fin 4 => (s.voice i).phase)

/-- The increments of the four slots. -/
def incs (s : State) : List Num32 := [0, 1, 2, 3].map (fun i : Fin 4 => (s.voice i).inc)

/-- The words on the sample port. -/
def words (s : State) : List SmpWord := s.smp.map (fun b => b.data)

/-- `voiceCount / nextSlot / lastNoteSeen`. -/
def counts (s : State) : Nat × Nat × Nat :=
  (s.voiceCount.toNat, s.nextSlot.toNat, s.lastNoteSeen.toNat)

end Sys2Proof.Tests
end

