-- ==== Sys2Proof/Tests/Slice0.lean ====
section
/-! SUPPORT. The model's own tests. Every expected value is copied from 95_test_vectors.md or
30_encoding.md R86, or worked out by hand from the rule a comment names; the configuration is TC1 or RC0
as the vector says. The second half has, for each obligation with hypotheses, concrete inputs that meet
them, at the boundaries of each clause. -/

-- One theorem after the other: each is small, and in parallel their threads take gigabytes of stack.
set_option Elab.async false

namespace Sys2Proof.Tests

open Sys2Proof.Machine

/-! ## WellFormed: one ill-formed line for each check (30_encoding.md R84, R85) -/

theorem test_init_plat_too_large : (Asm.init 4096 0).assemble = none := by decide
theorem test_init_api_too_large : (Asm.init 0 65536).assemble = none := by decide
theorem test_synth_note_too_large : (Asm.synth 256 0 0).assemble = none := by decide
theorem test_synth_mod_too_large : (Asm.synth 0 256 0).assemble = none := by decide
theorem test_synth_frames_too_large : (Asm.synth 0 0 4096).assemble = none := by decide
theorem test_noteon_np_too_large : (Asm.noteOn 0x10000000).assemble = none := by decide
theorem test_noteoff_np_too_large : (Asm.noteOff 0x10000000).assemble = none := by decide
theorem test_setp_values_too_large :
    (Asm.setpMode 65536).assemble = none ∧ (Asm.setpDrive 65536).assemble = none ∧
    (Asm.setpDetune 65536).assemble = none ∧ (Asm.setpAux 65536).assemble = none := by decide
theorem test_word_too_large : (Asm.word 0x100000000).assemble = none := by decide
theorem test_synthp_pitch_too_large : (Asm.synthp 65536 0).assemble = none := by decide
theorem test_synthp_frames_too_large : (Asm.synthp 0 4096).assemble = none := by decide

/-! ## Decoding: words of 95_test_vectors.md section 3.1, and words put together bit by bit from the
formats of 30_encoding.md R74 to R78 -/

/-- T-EN-1, T-EN-3; and op 0000, plat 000000000001, api 0000000100000001. -/
theorem test_decode_init :
    decode 0x00000000#32 = .operation (.init 0#12 0#16) ∧
    decode 0x0FFFFFFF#32 = .operation (.init 0xFFF#12 0xFFFF#16) ∧
    decode 0b00000000000000010000000100000001#32 = .operation (.init 1#12 0x0101#16) := by decide

/-- T-EN-4, T-EN-6; and op 0001, frames 000000001000, note 01000000, mod 10000000 (T-EN-5). -/
theorem test_decode_synth :
    decode 0x10403C00#32 = .operation (.synth 60#8 0#8 64#12) ∧
    decode 0x1FFFFFFF#32 = .operation (.synth 255#8 255#8 4095#12) ∧
    decode 0b00010000000010000100000010000000#32 = .operation (.synth 64#8 128#8 8#12) := by
  decide

/-- T-EN-8; op 0010 and 28 bits np. -/
theorem test_decode_noteon :
    decode 0x2ABCDEF0#32 = .operation (.noteOn 0xABCDEF0#28) ∧
    decode 0b00100000000000000000000000000001#32 = .operation (.noteOn 1#28) := by decide

/-- T-EN-9; op 0011 and 28 bits np. -/
theorem test_decode_noteoff :
    decode 0x3FFFFFFF#32 = .operation (.noteOff 0xFFFFFFF#28) ∧
    decode 0b00110000000000000000000000000001#32 = .operation (.noteOff 1#28) := by decide

/-- T-EN-10, T-EN-11; op 0100, rsv 0000, pid 00000000, value. -/
theorem test_decode_setp_mode :
    decode 0x40000002#32 = .operation (.setpMode 2#16) ∧
    decode 0x40000006#32 = .operation (.setpMode 6#16) ∧
    decode 0b01000000000000000000000000000101#32 = .operation (.setpMode 5#16) := by decide

/-- T-EN-12; pid 00000001. -/
theorem test_decode_setp_drive :
    decode 0x40010300#32 = .operation (.setpDrive 768#16) ∧
    decode 0b01000000000000010000001100000000#32 = .operation (.setpDrive 768#16) := by decide

/-- T-EN-13; pid 00000010. -/
theorem test_decode_setp_detune :
    decode 0x40020080#32 = .operation (.setpDetune 128#16) ∧
    decode 0b01000000000000100000000010000000#32 = .operation (.setpDetune 128#16) := by decide

/-- T-EN-14; pid 00000011. -/
theorem test_decode_setp_aux :
    decode 0x4003FFFF#32 = .operation (.setpAux 0xFFFF#16) ∧
    decode 0b01000000000000111000000000000001#32 = .operation (.setpAux 0x8001#16) := by decide

/-- T-EN-15 to T-EN-17. -/
theorem test_decode_reserved :
    decode 0x40040000#32 = .reserved (.pid 4#8) ∧ decode 0x41000000#32 = .reserved (.rsv 1#4) ∧
    decode 0x50000000#32 = .reserved (.op 5#4) ∧ decode 0xFFFFFFFF#32 = .reserved (.op 15#4) := by
  decide

/-- The host's two views of a table row: the bits above `nbits` are 0; a reserved word is no operation. -/
theorem test_table_words :
    decodeTableWord 32 0x10403C00 = some (.synth 60#8 0#8 64#12) ∧
    decodeTableWord 32 0x40040000 = none := by decide

/-! ## Allocator (section 3.2, TC1) -/

/-- T-AL-1. -/
theorem test_alloc_poly_first :
    let s := alloc (tc1 []) 60#8
      (engine .poly 0#3 0#2 0#8
      (slot 0#9 0#32 0#32) (slot 0#9 0#32 0#32)
      (slot 0#9 0#32 0#32) (slot 0#9 0#32 0#32))
    notes s = [60, 0, 0, 0] ∧
      indices s = [0x40700000#32, 0x00000000#32, 0x00000000#32, 0x00000000#32] ∧
      counts s = (1, 1, 60) := by decide +kernel

/-- T-AL-4: at capacity the cursor's slot, the oldest, is overwritten. -/
theorem test_alloc_poly_overwrites :
    let s := alloc (tc1 []) 80#8
      (engine .poly 4#3 0#2 64#8
      (slot 16#9 0#32 0#32) (slot 32#9 0#32 0#32)
      (slot 48#9 0#32 0#32) (slot 64#9 0#32 0#32))
    notes s = [80, 32, 48, 64] ∧
      indices s = [0x40A00000#32, 0x00000000#32, 0x00000000#32, 0x00000000#32] ∧
      counts s = (4, 1, 80) := by decide +kernel

/-- T-AL-2: the same note again changes nothing. -/
theorem test_alloc_poly_repeat :
    let s := alloc (tc1 []) 60#8
      (engine .poly 1#3 1#2 60#8
      (slot 60#9 0#32 0#32) (slot 0#9 0#32 0#32)
      (slot 0#9 0#32 0#32) (slot 0#9 0#32 0#32))
    notes s = [60, 0, 0, 0] ∧
      indices s = [0x00000000#32, 0x00000000#32, 0x00000000#32, 0x00000000#32] ∧
      counts s = (1, 1, 60) := by decide +kernel

/-- T-AL-5c: PolyRing takes the square index. -/
theorem test_alloc_polyring :
    let s := alloc (tc1 []) 64#8
      (engine .polyRing 0#3 0#2 0#8
      (slot 0#9 0#32 0#32) (slot 0#9 0#32 0#32)
      (slot 0#9 0#32 0#32) (slot 0#9 0#32 0#32))
    notes s = [64, 0, 0, 0] ∧
      indices s = [0x40000000#32, 0x00000000#32, 0x00000000#32, 0x00000000#32] ∧
      counts s = (1, 1, 64) := by decide +kernel

/-- T-AL-7: no wrap at 255 + 12. -/
theorem test_alloc_octave :
    let s := alloc (tc1 []) 255#8
      (engine .octave 2#3 2#2 62#8
      (slot 60#9 0#32 0#32) (slot 62#9 0#32 0#32)
      (slot 0#9 0#32 0#32) (slot 0#9 0#32 0#32))
    notes s = [255, 267, 255, 267] ∧
      indices s = [0x417F0000#32, 0x41858000#32, 0x417F0000#32, 0x41858000#32] ∧
      counts s = (4, 0, 62) := by decide +kernel

/-- T-AL-8. -/
theorem test_alloc_fifth :
    let s := alloc (tc1 []) 60#8
      (engine .fifth 0#3 0#2 0#8
      (slot 0#9 0#32 0#32) (slot 0#9 0#32 0#32)
      (slot 0#9 0#32 0#32) (slot 0#9 0#32 0#32))
    notes s = [60, 67, 60, 67] ∧
      indices s = [0x40700000#32, 0x40860000#32, 0x40700000#32, 0x40860000#32] ∧
      counts s = (4, 0, 0) := by decide +kernel

/-- T-AL-9. -/
theorem test_alloc_unison :
    let s := alloc (tc1 []) 64#8
      (engine .unison 1#3 1#2 60#8
      (slot 60#9 0#32 0#32) (slot 0#9 0#32 0#32)
      (slot 0#9 0#32 0#32) (slot 0#9 0#32 0#32))
    notes s = [64, 64, 64, 64] ∧
      indices s = [0x40800000#32, 0x40800000#32, 0x40800000#32, 0x40800000#32] ∧
      counts s = (4, 0, 60) := by decide +kernel

/-- T-AL-10. -/
theorem test_alloc_unison_ring :
    let s := alloc (tc1 []) 64#8
      (engine .unisonRing 0#3 0#2 0#8
      (slot 0#9 0#32 0#32) (slot 0#9 0#32 0#32)
      (slot 0#9 0#32 0#32) (slot 0#9 0#32 0#32))
    notes s = [64, 64, 64, 64] ∧
      indices s = [0x40000000#32, 0x40000000#32, 0x40000000#32, 0x40000000#32] ∧
      counts s = (4, 0, 0) := by decide +kernel

/-! ## Resolver (section 3.3, TC1): `modByte`, `detuneAmount`, slot, note, draw -/

/-- T-RS-1 to T-RS-9: modulation, the detune split between the halves of the slots, the dither. -/
theorem test_resolve_split :
    resolvedInc (tc1 []) 0#8 0x00000000#32 0 64#9 0x00000000#32 = 0x3E800000#32 ∧
    resolvedInc (tc1 []) 128#8 0x00000000#32 0 64#9 0x00000000#32 = 0x3E810000#32 ∧
    resolvedInc (tc1 []) 255#8 0x00000000#32 0 64#9 0x3F800000#32 = 0x3E81FF00#32 ∧
    resolvedInc (tc1 []) 0#8 0x3E000000#32 0 64#9 0x00000000#32 = 0x3E7F8000#32 ∧
    resolvedInc (tc1 []) 0#8 0x3E000000#32 1 64#9 0x00000000#32 = 0x3E7F8000#32 ∧
    resolvedInc (tc1 []) 0#8 0x3E000000#32 2 64#9 0x00000000#32 = 0x3E804000#32 ∧
    resolvedInc (tc1 []) 0#8 0x3E000000#32 3 64#9 0x3F000000#32 = 0x3E804080#32 ∧
    resolvedInc (tc1 []) 0#8 0x3E000000#32 0 64#9 0x3F800000#32 = 0x3E7F8200#32 ∧
    resolvedInc (tc1 []) 0#8 0x3E000000#32 1 64#9 0xBF800000#32 = 0x3E7F7E00#32 := by
  decide +kernel

/-- T-RS-10 to T-RS-16: the clip from above only, the dither after it, a negative increment. -/
theorem test_resolve_clip :
    resolvedInc (tc1 []) 128#8 0x3E000000#32 2 64#9 0x00000000#32 = 0x3E814000#32 ∧
    resolvedInc (tc1 []) 0#8 0x00000000#32 0 255#9 0x00000000#32 = 0x3F000000#32 ∧
    resolvedInc (tc1 []) 0#8 0x00000000#32 1 267#9 0x00000000#32 = 0x3F000000#32 ∧
    resolvedInc (tc1 []) 0#8 0x00000000#32 0 0#9 0x00000000#32 = 0x00000000#32 ∧
    resolvedInc (tc1 []) 0#8 0x00000000#32 0 0#9 0xBF800000#32 = 0xB7000000#32 ∧
    resolvedInc (tc1 []) 0#8 0x427FFF00#32 0 1#9 0x00000000#32 = 0xBE7BFF00#32 ∧
    resolvedInc (tc1 []) 0#8 0x00000000#32 0 128#9 0x3F800000#32 = 0x3F000080#32 := by
  decide +kernel

/-- Two active slots take two draws in ascending order, the others none (42_resolver.md R136). -/
theorem test_resolve_draws :
    let s := resolve (tc1 [0x3F800000#32, 0xBF800000#32]) 0#8 (engine .poly 2#3 2#2 32#8
      (slot 0#9 0#32 0#32) (slot 0#9 0#32 0#32)
      (slot 5#9 0#32 0x3F800000#32) (slot 6#9 0#32 0x3F800000#32))
    incs s = [0x37000000#32, 0xB7000000#32, 0x3F800000#32, 0x3F800000#32] ∧ s.draws = 2 := by
  decide +kernel

/-! ## Phase accumulator (section 3.4) -/

/-- T-PH-1 to T-PH-5. -/
theorem test_phase_wrap :
    nextPhase 0x3F400000#32 0x3EC00000#32 = 0x3E000000#32 ∧
    nextPhase 0x00000000#32 0x00000000#32 = 0x00000000#32 ∧
    nextPhase 0x3F000000#32 0x3F000000#32 = 0x00000000#32 ∧
    nextPhase 0x3F700000#32 0x3D800000#32 = 0x00000000#32 ∧
    nextPhase 0x3E800000#32 0x3FE00000#32 = 0x00000000#32 := by
  decide +kernel

/-- T-PH-7 (floor, not truncation) and T-PH-8 (a tiny negative sum rounds to 1.0). -/
theorem test_phase_negative :
    nextPhase 0x3E800000#32 0xBF000000#32 = 0x3F400000#32 ∧
    nextPhase 0x00000000#32 0xB0800000#32 = 0x3F800000#32 := by
  decide +kernel

/-! ## Mixers (section 3.5, TC1) -/

/-- T-MX-2, T-MX-3, T-MX-4. -/
theorem test_mix_additive :
    (mix (tc1 []) (engine .poly 2#3 2#2 0#8
      (slot 0#9 0x3E800000#32 0x3E000000#32) (slot 0#9 0x3F000000#32 0x3E000000#32)
      (slot 0#9 0#32 0x3F000000#32) (slot 0#9 0#32 0x3F000000#32))).1 = 0xBE000000#32 ∧
    (mix (tc1 []) (engine .unison 4#3 0#2 0#8
      (slot 0#9 0#32 0x3E000000#32) (slot 0#9 0#32 0x3E000000#32)
      (slot 0#9 0#32 0x3E000000#32) (slot 0#9 0#32 0x3E000000#32))).1 = 0xBF800000#32 ∧
    (mix (tc1 []) (engine .octave 4#3 0#2 0#8
      (slot 0#9 0x3E000000#32 0x3E000000#32) (slot 0#9 0x3E300000#32 0x3E000000#32)
      (slot 0#9 0x3E000000#32 0x3E000000#32) (slot 0#9 0x3E300000#32 0x3E000000#32))).1 =
        0xBF340000#32 := by
  decide +kernel

/-- T-MX-5 (a zero, negative here), T-MX-6, T-MX-8. -/
theorem test_mix_ring :
    (mix (tc1 []) (engine .polyRing 2#3 2#2 0#8
      (slot 0#9 0x3F400000#32 0x3E000000#32) (slot 0#9 0#32 0x3E000000#32)
      (slot 0#9 0#32 0x3F000000#32) (slot 0#9 0#32 0x3F000000#32))).1 = 0x80000000#32 ∧
    (mix (tc1 []) (engine .polyRing 2#3 2#2 0#8
      (slot 0#9 0x3E800000#32 0x3E000000#32) (slot 0#9 0x3F400000#32 0x3E000000#32)
      (slot 0#9 0#32 0x3F000000#32) (slot 0#9 0#32 0x3F000000#32))).1 = 0xBF666666#32 ∧
    (mix (tc1 []) (engine .unisonRing 4#3 0#2 0#8
      (slot 0#9 0x3EC00000#32 0x3E000000#32) (slot 0#9 0x3F040000#32 0x3E000000#32)
      (slot 0#9 0x3EC00000#32 0x3E000000#32) (slot 0#9 0x3F040000#32 0x3E000000#32))).1 =
        0x3F666666#32 := by
  decide +kernel

/-- After a mix every active phase has advanced by its increment, the others not (R153 d). -/
theorem test_mix_advances :
    phases (mix (tc1 []) (engine .poly 2#3 2#2 0#8
      (slot 0#9 0x3E800000#32 0x3E000000#32) (slot 0#9 0x3F000000#32 0x3F400000#32)
      (slot 0#9 0x3E800000#32 0x3F000000#32) (slot 0#9 0#32 0x3F000000#32))).2
      = [0x3EC00000#32, 0x3E800000#32, 0x3E800000#32, 0x00000000#32] := by
  decide +kernel

/-! ## Drive and conversion (section 3.6, TC1; RC0 in section 5) -/

/-- T-DR-1, T-DR-4, T-DR-5, T-DR-7, T-DR-8, T-DR-9: the driven value; and T-DR-3, the zero. -/
theorem test_drive :
    drive (tc1 []) 0x00000000#32 0x3F000000#32 = 0x3F000000#32 ∧
    drive (tc1 []) 0x00000000#32 0x3FC00000#32 = 0x3FC00000#32 ∧
    drive (tc1 []) 0x3F400000#32 0x3F000000#32 = 0x3F180000#32 ∧
    drive (tc1 []) 0x3F400000#32 0xBF800000#32 = 0xBF800000#32 ∧
    drive (tc1 []) 0x3F400000#32 0x3F800000#32 = 0x3F800000#32 ∧
    drive (tc1 []) 0x3F400000#32 0xBF340000#32 = 0xBF4AC0B0#32 ∧
    drive (tc1 []) 0x00000000#32 0x80000000#32 = 0x00000000#32 := by
  decide +kernel

/-- The conversions listed under section 3.6, and the word of T-DR-9. -/
theorem test_conversion :
    conv (tc1 []) 0x00000000#32 = 0x00000000#32 ∧
    conv (tc1 []) 0x80000000#32 = 0x00000000#32 ∧
    conv (tc1 []) 0x3E800000#32 = 0x20000000#32 ∧
    conv (tc1 []) 0xBF000000#32 = 0xC0000000#32 ∧
    conv (tc1 []) 0x3F800000#32 = 0x7FFFFFFF#32 ∧
    conv (tc1 []) 0xBF800000#32 = 0x80000000#32 ∧
    conv (tc1 []) 0x3FC00000#32 = 0x7FFFFFFF#32 ∧
    conv (tc1 []) 0xBFC00000#32 = 0x80000000#32 ∧
    conv (tc1 []) 0x30000000#32 = 0x00000001#32 ∧
    conv (tc1 []) 0xB0000000#32 = 0xFFFFFFFF#32 ∧
    conv (tc1 []) 0x2F800000#32 = 0x00000000#32 ∧
    conv (tc1 []) 0x3F7FFFFF#32 = 0x7FFFFF80#32 ∧
    conv (tc1 []) 0x3B800001#32 = 0x00800001#32 ∧
    conv (tc1 []) 0x3F666666#32 = 0x73333300#32 ∧
    conv (tc1 []) 0xBF4AC0B0#32 = 0x9A9FA800#32 := by
  decide +kernel

/-- RC0 with silent tables and no noise. -/
def rc0 : Cfg := Rc0.cfg (fun _ => 0#32) (fun _ => 0#32) (fun _ _ => 0#32) (fun _ _ => 0#32) (fun _ => 0#32)

/-- T-RC0-4, T-RC0-5: `noteHz` and the resolver. -/
theorem test_rc0_resolver :
    Rc0.noteHz 69#9 = 0x43DC0000#32 ∧ Rc0.noteHz 70#9 = 0x43E914F6#32 ∧
    Rc0.noteHz 60#9 = 0x4382D013#32 ∧ Rc0.noteHz 267#9 = 0x4743FF6A#32 ∧
    resolvedInc rc0 0#8 0x00000000#32 0 69#9 0x3F800000#32 = 0x3C1659BA#32 ∧
    resolvedInc rc0 255#8 0x00000000#32 0 69#9 0x00000000#32 = 0x3C1F1E03#32 ∧
    resolvedInc rc0 128#8 0x00000000#32 0 69#9 0x00000000#32 = 0x3C1AAB62#32 ∧
    resolvedInc rc0 0#8 0x3DCC330D#32 0 60#9 0x00000000#32 = 0x3BB18B4D#32 ∧
    resolvedInc rc0 0#8 0x3DCC330D#32 2 60#9 0x00000000#32 = 0x3BB3A977#32 ∧
    resolvedInc rc0 0#8 0x00000000#32 0 140#9 0x00000000#32 = 0x3EFC9536#32 ∧
    resolvedInc rc0 0#8 0x00000000#32 0 0#9 0xBF800000#32 = 0x39281E07#32 := by
  decide +kernel

/-- T-RC0-6, T-RC0-7, T-RC0-10: the drive with its threshold and gain, and the words. -/
theorem test_rc0_drive :
    driveThreshold 0x3F800000#32 = 0x3EAAAAAB#32 ∧ driveGain 0x3F800000#32 = 0x3FC00001#32 ∧
    drive rc0 0x3F800000#32 0x3F800000#32 = 0x3F800000#32 ∧
    drive rc0 0x3F800000#32 0x3F000000#32 = 0x3F300001#32 ∧
    drive rc0 0x3F000000#32 0x3F000000#32 = 0x3F09999A#32 ∧
    drive rc0 0x3F000000#32 0x40000000#32 = 0x3FC00000#32 ∧
    drive rc0 0x3F002008#32 0x3E800000#32 = 0x3E8C069C#32 ∧
    conv rc0 0x3F300001#32 = 0x58000080#32 ∧ conv rc0 0x3E8C069C#32 = 0x2301A700#32 ∧
    conv rc0 0x3F666666#32 = 0x73333300#32 ∧ conv rc0 0xBF666666#32 = 0x8CCCCD00#32 ∧
    conv rc0 (drive rc0 0x3F800000#32 0xBF340000#32) = 0x8F3F4F80#32 := by
  decide +kernel

/-- T-RC0-2, T-RC0-3: the parameter maps. -/
theorem test_rc0_parameters :
    driveOfValue rc0 1#16 = 0x3A802008#32 ∧ driveOfValue rc0 768#16 = 0x3F40300C#32 ∧
    driveOfValue rc0 1022#16 = 0x3F7FBFF0#32 ∧ driveOfValue rc0 1024#16 = 0x3F800000#32 ∧
    rc0.paramToFloat 102#16 = 0x3DCC330D#32 ∧ rc0.paramToFloat 2046#16 = 0x40000000#32 := by
  decide +kernel

/-! ## Lifecycle operations (section 3.7), one step each through the command port -/

/-- A state with something in every register. -/
def busy : State :=
  { engine .fifth 3#3 3#2 62#8 (slot 60#9 0x3F000000#32 0x3E000000#32)
      (slot 61#9 0x3E800000#32 0x3E000000#32) (slot 62#9 0x3E000000#32 0x3E000000#32)
      (slot 7#9 0x3D800000#32 0x3F000000#32) with
    driveAmount := 0x3F000000#32, detuneAmount := 0x3F400000#32, draws := 5
    smp := [{ data := 0x12345678#32, last := true }] }

/-- T-LC-1. -/
theorem test_init_step :
    step (busy.withFetchWord 32 0x00010101) =
      .next { State.reset with draws := 5, smp := [{ data := 0x12345678#32, last := true }] } := rfl

/-- T-LC-2: only `voiceCount` and `nextSlot`. -/
theorem test_noteon_step :
    step (busy.withFetchWord 32 0x20000000) =
      .next { busy with voiceCount := 0#3, nextSlot := 0#2 } := rfl

/-- T-LC-3. -/
theorem test_noteoff_step : step (busy.withFetchWord 32 0x3FFFFFFF) = .next busy := rfl

/-- T-LC-4. -/
theorem test_setp_mode_step :
    step (busy.withFetchWord 32 0x40000004) = .next { busy with mode := .unisonRing } := rfl

/-- T-LC-5, T-LC-6: a value above 5 is ignored. -/
theorem test_setp_mode_ignored :
    step (busy.withFetchWord 32 0x40000006) = .next busy ∧
    step (busy.withFetchWord 32 0x4000FFFF) = .next busy := ⟨rfl, rfl⟩

/-- T-LC-7 to T-LC-11 (TC1): the value `SETP.DRIVE` stores. -/
theorem test_setp_drive_values :
    driveOfValue (tc1 []) 0#16 = 0x00000000#32 ∧ driveOfValue (tc1 []) 0x300#16 = 0x3F400000#32 ∧
    driveOfValue (tc1 []) 0x400#16 = 0x3F800000#32 ∧
    driveOfValue (tc1 []) 0x7D0#16 = 0x3F800000#32 ∧
    driveOfValue (tc1 []) 0xFFFF#16 = 0x3F800000#32 := by decide +kernel

/-- `Cfg.conform` leaves TC1's own values alone (the same vectors T-LC-8, T-LC-10, T-RS-15's frequency), and
makes a clip that ignores its rule keep it: 1 for 2.0, the maximum from it on, a negative value as is. -/
theorem test_conform :
    driveOfValue (tc1 []).conform 0x300#16 = 0x3F400000#32 ∧
    driveOfValue (tc1 []).conform 0x7D0#16 = 0x3F800000#32 ∧
    (tc1 []).conform.clipMax 0xC67BFF00#32 0x47000000#32 = 0xC67BFF00#32 ∧
    Prim.clip01 (fun _ => 0x3F000000#32) 0x40000000#32 = 0x3F800000#32 ∧
    Prim.clip01 (fun _ => 0x3F000000#32) 0x3E800000#32 = 0x3F000000#32 ∧
    Prim.clipMax (fun _ _ => 0#32) 0x47000000#32 0x47000000#32 = 0x47000000#32 ∧
    Prim.clipMax (fun _ _ => 0#32) 0xBF800000#32 0x47000000#32 = 0xBF800000#32 ∧
    Prim.clipMax (fun _ _ => 0#32) 0x3F800000#32 0x47000000#32 = 0#32 := by decide +kernel

/-- T-LC-12 to T-LC-14 (TC1): the value `SETP.DETUNE` stores, not clamped. -/
theorem test_setp_detune_values :
    (tc1 []).paramToFloat 0x80#16 = 0x3E000000#32 ∧
    (tc1 []).paramToFloat 0x66#16 = 0x3DCC0000#32 ∧
    (tc1 []).paramToFloat 0xFFFF#16 = 0x427FFF00#32 := by decide +kernel

/-- T-LC-15. -/
theorem test_setp_aux_step : step (busy.withFetchWord 32 0x4003FFFF) = .next busy := rfl

/-- T-LC-16: reserved words. -/
theorem test_reserved_step :
    step (busy.withFetchWord 32 0x40040000) = .next busy ∧
    step (busy.withFetchWord 32 0x41000000) = .next busy ∧
    step (busy.withFetchWord 32 0xFFFFFFFF) = .next busy :=
  ⟨rfl, rfl, rfl⟩

/-- `SETP.DRIVE` and `SETP.DETUNE` run as the first operation after reset, whatever the configuration. -/
theorem test_setp_first_step :
    step (State.reset.withFetchWord 32 0x40010300) =
      .next { State.reset with driveAmount := driveOfValue Config.cfg 768#16 } ∧
    step (State.reset.withFetchWord 32 0x40020080) =
      .next { State.reset with detuneAmount := Config.paramToFloat 128#16 } := ⟨rfl, rfl⟩

/-! ## SYNTH (section 3.8, TC1) -/

/-- T-SYN-1: the words, the last marked, the state. -/
theorem test_synth :
    let s := synth (tc1 []) 64#8 0#8 8#12 State.reset
    words s = [0xE0000000#32, 0xF0000000#32, 0x00000000#32, 0x10000000#32, 0xE0000000#32,
      0xF0000000#32, 0x00000000#32, 0x10000000#32] ∧
      s.smp.map (fun b => b.last) = [false, false, false, false, false, false, false, true] ∧
      counts s = (1, 1, 64) ∧
      s.voice 0 = { note := 64#9, wti := 0x40800000#32, phase := 0#32, inc := 0x3E800000#32 } := by
  decide +kernel

/-- T-SYN-5: a detune of 63.999 gives a negative increment; phases 0.75391006 and 0.50782013. -/
theorem test_synth_negative_increment :
    let s := synth (tc1 []) 1#8 0#8 2#12 { State.reset with detuneAmount := 0x427FFF00#32 }
    words s = [0xE0000000#32, 0x10401000#32] ∧
      s.voice 0 = {
        note := 1#9, wti := 0x3D800000#32
        phase := 0x3F020080#32, inc := 0xBE7BFF00#32 } := by
  decide +kernel

/-- `SYNTH` runs as the first operation after reset: slot 0 is allocated, two words are emitted, whatever
the configuration. -/
theorem test_synth_first_step :
    ∃ t, step (State.reset.withFetchWord 32 0x10023C00) = .next t ∧ counts t = (1, 1, 60) ∧
      t.smp.map (fun b => b.last) = [false, true] ∧ t.cmds = [] ∧ t.cmdReady = true :=
  ⟨_, rfl, rfl, rfl, rfl, rfl⟩

/-! ## Witnesses: inputs that meet the hypotheses of each obligation that has some -/

/-- A state with the host about to issue `w`, then a `NOTEOFF`. -/
def about (w : CmdWord) : State := { State.reset with cmds := [w, 0x30000000#32] }

/-- `EncodeInvertsDecode`: a word of each operation with all operand bits set. -/
theorem witness_EncodeInvertsDecode :
    decode 0x0FFFFFFF#32 = .operation (.init 0xFFF#12 0xFFFF#16) ∧
    decode 0x1FFFFFFF#32 = .operation (.synth 255#8 255#8 4095#12) ∧
    decode 0x2FFFFFFF#32 = .operation (.noteOn 0xFFFFFFF#28) ∧
    decode 0x3FFFFFFF#32 = .operation (.noteOff 0xFFFFFFF#28) ∧
    decode 0x4000FFFF#32 = .operation (.setpMode 0xFFFF#16) ∧
    decode 0x4001FFFF#32 = .operation (.setpDrive 0xFFFF#16) ∧
    decode 0x4002FFFF#32 = .operation (.setpDetune 0xFFFF#16) ∧
    decode 0x4003FFFF#32 = .operation (.setpAux 0xFFFF#16) := by decide

/-- `OpcodeMapSelectsOperation`: a word of each row. -/
theorem witness_OpcodeMapSelectsOperation :
    0x0FFFFFFF#32 &&& 0xF0000000#32 = 0x00000000#32 ∧
    0x1FFFFFFF#32 &&& 0xF0000000#32 = 0x10000000#32 ∧
    0x2FFFFFFF#32 &&& 0xF0000000#32 = 0x20000000#32 ∧
    0x3FFFFFFF#32 &&& 0xF0000000#32 = 0x30000000#32 ∧
    0x4000FFFF#32 &&& 0xFFFF0000#32 = 0x40000000#32 ∧
    0x4001FFFF#32 &&& 0xFFFF0000#32 = 0x40010000#32 ∧
    0x4002FFFF#32 &&& 0xFFFF0000#32 = 0x40020000#32 ∧
    0x4003FFFF#32 &&& 0xFFFF0000#32 = 0x40030000#32 := by decide

/-- `OpcodeMapSelectsOperation`: words no row matches. -/
theorem witness_OpcodeMapSelectsOperation_reserved :
    (∀ r ∈ opcodeRows, 0x40040000#32 &&& r.1 ≠ r.2) ∧
    (∀ r ∈ opcodeRows, 0x41000000#32 &&& r.1 ≠ r.2) ∧
    (∀ r ∈ opcodeRows, 0x50000000#32 &&& r.1 ≠ r.2) := by
  simp [opcodeRows]

/-- `ReservedWordsAreIgnored`: each of the three reserved cases, offered to a ready engine. -/
theorem witness_ReservedWordsAreIgnored :
    ((about 0x50000000#32).offered 0x50000000#32 [0x30000000#32] ∧
      ∃ why, decode 0x50000000#32 = .reserved why) ∧
    (∃ why, decode 0x41000000#32 = .reserved why) ∧ ∃ why, decode 0x40040000#32 = .reserved why :=
  ⟨⟨⟨rfl, rfl⟩, .op 5#4, by decide⟩, ⟨.rsv 1#4, by decide⟩, .pid 4#8, by decide⟩

/-- `AssemblerKeepsOperands`: the smallest operands out of range, and each line with its
largest operands. -/
theorem witness_AssemblerKeepsOperands :
    (4095 < 4096 ∨ 65535 < 0) ∧ (255 < 0 ∨ 255 < 256 ∨ 4095 < 0) ∧ (65535 < 65536 ∨ 4095 < 0) ∧
    0x0FFFFFFF < 0x10000000 ∧ 65535 < 65536 ∧ 0xFFFFFFFF < 0x100000000 ∧
    (Asm.init 4095 65535).assemble = some 0x0FFFFFFF#32 ∧
    (Asm.synth 255 255 4095).assemble = some 0x1FFFFFFF#32 ∧
    (Asm.synthp 65535 4095).assemble = some 0x1FFFFFFF#32 ∧
    (Asm.noteOn 0x0FFFFFFF).assemble = some 0x2FFFFFFF#32 ∧
    (Asm.noteOff 0x0FFFFFFF).assemble = some 0x3FFFFFFF#32 ∧
    (Asm.setpMode 65535).assemble = some 0x4000FFFF#32 ∧
    (Asm.setpDrive 65535).assemble = some 0x4001FFFF#32 ∧
    (Asm.setpDetune 65535).assemble = some 0x4002FFFF#32 ∧
    (Asm.setpAux 65535).assemble = some 0x4003FFFF#32 ∧
    (Asm.word 0xFFFFFFFF).assemble = some 0xFFFFFFFF#32 := by decide

/-- `StepRunsDecodedOperation` and `StepTakesOneCommand`: a ready engine and a word to issue. -/
theorem witness_StepRunsDecodedOperation :
    (about 0x10403C00#32).offered 0x10403C00#32 [0x30000000#32] ∧
    decode 0x10403C00#32 = .operation (.synth 60#8 0#8 64#12) ∧ wordsOf 0x10403C00#32 = 64 :=
  ⟨⟨rfl, rfl⟩, by decide, by decide⟩

/-- The statements about a step on every word of a row (`InitZeroesRegistersOnly` to `SetpAuxHasNoEffect`):
a word of each row, with all operand bits set, offered to a ready engine. -/
theorem witness_offered_words :
    ((about 0x0FFFFFFF#32).offered 0x0FFFFFFF#32 [0x30000000#32] ∧
      0x0FFFFFFF#32 &&& 0xF0000000#32 = 0x00000000#32) ∧
    ((about 0x2FFFFFFF#32).offered 0x2FFFFFFF#32 [0x30000000#32] ∧
      0x2FFFFFFF#32 &&& 0xF0000000#32 = 0x20000000#32) ∧
    ((about 0x3FFFFFFF#32).offered 0x3FFFFFFF#32 [0x30000000#32] ∧
      0x3FFFFFFF#32 &&& 0xF0000000#32 = 0x30000000#32) ∧
    ((about 0x40000005#32).offered 0x40000005#32 [0x30000000#32] ∧
      0x40000005#32 &&& 0xFFFF0000#32 = 0x40000000#32) ∧
    ((about 0x40000006#32).offered 0x40000006#32 [0x30000000#32] ∧
      0x40000006#32 &&& 0xFFFF0000#32 = 0x40000000#32) ∧
    ((about 0x4001FFFF#32).offered 0x4001FFFF#32 [0x30000000#32] ∧
      0x4001FFFF#32 &&& 0xFFFF0000#32 = 0x40010000#32) ∧
    ((about 0x4002FFFF#32).offered 0x4002FFFF#32 [0x30000000#32] ∧
      0x4002FFFF#32 &&& 0xFFFF0000#32 = 0x40020000#32) ∧
    ((about 0x4003FFFF#32).offered 0x4003FFFF#32 [0x30000000#32] ∧
      0x4003FFFF#32 &&& 0xFFFF0000#32 = 0x40030000#32) :=
  ⟨⟨⟨rfl, rfl⟩, rfl⟩, ⟨⟨rfl, rfl⟩, rfl⟩, ⟨⟨rfl, rfl⟩, rfl⟩, ⟨⟨rfl, rfl⟩, rfl⟩, ⟨⟨rfl, rfl⟩, rfl⟩,
    ⟨⟨rfl, rfl⟩, rfl⟩, ⟨⟨rfl, rfl⟩, rfl⟩, ⟨rfl, rfl⟩, rfl⟩

/-- `IdleStepKeepsState`: nothing to issue; and an engine that is not ready. -/
theorem witness_IdleStepKeepsState :
    State.reset.cmds = [] ∧
    { about 0x00000000#32 with cmdReady := false }.cmdReady = false := ⟨rfl, rfl⟩

/-- `SetpModeWritesNamedMode`: the largest value that names a mode, the smallest that does not. -/
theorem witness_SetpModeWritesNamedMode :
    (5#16).toNat ≤ 5 ∧ 5 < (6#16).toNat ∧ (BitVec.extractLsb' 0 16 0x40000005#32).toNat ≤ 5 ∧
    5 < (BitVec.extractLsb' 0 16 0x40000006#32).toNat := by decide

/-- `SetpDriveClampsProduct`: under TC1, value 1024 has the product 1 and value 1023 one between 0 and 1, which
TC1's clip keeps in [0, 1]; its clip is the default one. -/
theorem witness_SetpDriveClampsProduct :
    2 ^ 149 ≤ F32.units (F32.mul (F32.ofNat (1024#16).toNat) (tc1 []).conform.paramScale) ∧
    0 < F32.units (F32.mul (F32.ofNat (1023#16).toNat) (tc1 []).conform.paramScale) ∧
    F32.units (F32.mul (F32.ofNat (1023#16).toNat) (tc1 []).conform.paramScale) < 2 ^ 149 ∧
    F32.inUnit ((tc1 []).clip01
      (F32.mul (F32.ofNat (1023#16).toNat) (tc1 []).conform.paramScale)) = true := by
  decide +kernel

theorem witness_SetpDriveClampsProduct_default : (tc1 []).clip01 = Rc0.clip01 := rfl

/-- `LifecycleIsSilentAndIdempotent`: the seven operations. -/
theorem witness_LifecycleIsSilentAndIdempotent :
    isSynth (.init 0#12 0#16) = false ∧ isSynth (.noteOn 0#28) = false ∧
    isSynth (.noteOff 0#28) = false ∧ isSynth (.setpMode 6#16) = false ∧
    isSynth (.setpDrive 0#16) = false ∧ isSynth (.setpDetune 0#16) = false ∧
    isSynth (.setpAux 0#16) = false := by decide

/-- `OnlyListedWritersWrite`: a register each operation does not write. `INIT` writes them all. -/
theorem witness_OnlyListedWritersWrite :
    mayWrite (.synth 0#8 0#8 0#12) .mode = false ∧ mayWrite (.noteOn 0#28) .lastNoteSeen = false ∧
    mayWrite (.noteOff 0#28) .voices = false ∧ mayWrite (.setpMode 0#16) .voices = false ∧
    mayWrite (.setpDrive 0#16) .detuneAmount = false ∧
    mayWrite (.setpDetune 0#16) .driveAmount = false ∧
    mayWrite (.setpAux 0#16) .mode = false := by decide

/-- `SynthFrame`: a mode outside the Poly family; and, after a first note, slots 1 to 3 not active. -/
theorem witness_SynthFrame :
    (busy.mode ≠ .poly ∧ busy.mode ≠ .polyRing) ∧
    ∃ t, exec (.synth 60#8 0#8 0#12) State.reset = .next t ∧ t.voiceCount.toNat ≤ (1 : Fin 4).val :=
  ⟨by decide, _, rfl, by decide +kernel⟩

/-- `InactiveSlotsAreKept`: the hypotheses with no voice and with all four, and a slot that is not active
after the operation. -/
theorem witness_InactiveSlotsAreKept :
    State.reset.voiceCount.toNat ≤ 4 ∧ State.reset.cursorFollows ∧
    (engine .poly 4#3 2#2 0#8 Voice.zero Voice.zero Voice.zero Voice.zero).cursorFollows ∧
    ∃ t, exec (.synth 60#8 0#8 0#12) State.reset = .next t ∧ t.voiceCount.toNat ≤ (1 : Fin 4).val := by
  refine ⟨by decide, ?_, ?_, _, rfl, by decide +kernel⟩
  · intro _
    rfl
  · intro h
    exact absurd h (by decide)

/-- `PolyAllocation`: both modes; no voice, a new note, the note seen last. -/
theorem witness_PolyAllocation :
    State.reset.mode = .poly ∧ State.reset.voiceCount = 0#3 ∧
    (let s := engine .polyRing 1#3 1#2 60#8 Voice.zero Voice.zero Voice.zero Voice.zero;
      s.mode = .polyRing ∧ 61#8 ≠ s.lastNoteSeen ∧
      ¬ (s.voiceCount = 0#3 ∨ 60#8 ≠ s.lastNoteSeen)) := by decide

/-- `PairAllocation`, `UnisonAllocation`, `FullResetHealsTableIndex`: a state in each full-reset mode. -/
theorem witness_full_reset_modes :
    { State.reset with mode := .octave }.mode = .octave ∧ busy.mode = .fifth ∧
    { State.reset with mode := .unison }.mode = .unison ∧
    { State.reset with mode := .unisonRing }.mode = .unisonRing := by decide

/-- `NoteOnForcesAllocation`: both modes, the note seen last among them. -/
theorem witness_NoteOnForcesAllocation :
    State.reset.mode = .poly ∧ State.reset.lastNoteSeen = 0#8 ∧
    { State.reset with mode := .polyRing }.mode = .polyRing := by decide

/-- The frequency of slot 0 under TC1 for `note`, `modByte` 0 and a detune amount. -/
def tc1Frequency (note : BitVec 9) (detune : Num32) : Num32 :=
  (tc1 []).lerp
    (F32.add (F32.mul (F32.ofNat (0#8).toNat) (tc1 []).noteModScale) (F32.neg detune))
    ((tc1 []).noteHz note) ((tc1 []).noteHz (note + 1#9))

/-- `FrequencyIsClippedFromAboveOnly`: slot 0 is active; T-RS-16 is exactly at `F_MAX`, T-RS-15 is negative,
T-RS-4 lies between; TC1's clip is the default one. -/
theorem witness_FrequencyIsClippedFromAboveOnly :
    ((synth (tc1 []).conform 128#8 0#8 0#12 State.reset).isActive 0 ∧
      ((synth (tc1 []).conform 128#8 0#8 0#12 State.reset).voice 0).note = 128#9) ∧
    F32.isFinite (tc1 []).fMax = true ∧
    (F32.isFinite (tc1Frequency 128#9 0#32) = true ∧
      F32.units (tc1 []).fMax ≤ F32.units (tc1Frequency 128#9 0#32)) ∧
    (F32.isFinite (tc1Frequency 1#9 0x427FFF00#32) = true ∧
      F32.units (tc1Frequency 1#9 0x427FFF00#32) < F32.units (tc1 []).fMax ∧
      F32.units (tc1Frequency 1#9 0x427FFF00#32) < 0) ∧
    (F32.isFinite (tc1Frequency 64#9 0x3E000000#32) = true ∧
      F32.units (tc1Frequency 64#9 0x3E000000#32) < F32.units (tc1 []).fMax) := by
  unfold State.isActive
  decide +kernel

theorem witness_FrequencyIsClippedFromAboveOnly_default : (tc1 []).clipMax = Rc0.clipMax := rfl

/-- `HalfMatesDifferByDitherOnly`: under TC1 with equal draws, slots 0 and 1 of a Unison note, and slots 2
and 3. -/
theorem witness_HalfMatesDifferByDitherOnly :
    let t := synth (tc1 []) 64#8 0#8 1#12 { State.reset with mode := .unison }
    (t.isActive 0 ∧ t.isActive 1 ∧ (t.voice 0).note = (t.voice 1).note ∧
      (tc1 []).noise 0 = (tc1 []).noise 1) ∧
    (t.isActive 2 ∧ t.isActive 3 ∧ (t.voice 2).note = (t.voice 3).note ∧
      (tc1 []).noise 2 = (tc1 []).noise 3) := by
  unfold State.isActive
  decide +kernel

/-- `SynthIgnoresEarlierOutput`: two states with other words emitted and still to issue. -/
theorem witness_SynthIgnoresEarlierOutput :
    busy.sameRegisters { busy with smp := [], cmds := [0x00000000#32] } ∧
    busy.draws = { busy with smp := [], cmds := [0x00000000#32] }.draws :=
  ⟨⟨rfl, rfl, rfl, rfl, rfl, rfl, rfl⟩, rfl⟩

/-- `PhaseWrapIsExact`: T-PH-1; the largest phase with the largest increment below 1; T-PH-7. -/
theorem witness_PhaseWrapIsExact :
    (F32.inPhaseRange 0x3F400000#32 = true ∧ F32.isFinite 0x3EC00000#32 = true ∧
      0 ≤ F32.units (F32.add 0x3F400000#32 0x3EC00000#32)) ∧
    (F32.inPhaseRange 0x3F7FFFFF#32 = true ∧ F32.inPhaseRange 0x3F7FFFFF#32 = true) ∧
    (F32.inPhaseRange 0x3E800000#32 = true ∧ F32.isFinite 0xBF000000#32 = true ∧
      F32.units (F32.add 0x3E800000#32 0xBF000000#32) < 0) := by decide +kernel

/-- `PhaseAccumulatorExactOnGrid`: 15/64 as in program P1b, and the largest value of the grid. -/
theorem witness_PhaseAccumulatorExactOnGrid :
    (F32.inPhaseRange 0x3E700000#32 = true ∧ F32.isFinite 0x3E700000#32 = true ∧
      F32.units 0x3E700000#32 % 2 ^ 126 = 0) ∧
    (F32.inPhaseRange 0x3F7FFFFE#32 = true ∧ F32.isFinite 0x3F7FFFFE#32 = true ∧
      F32.units 0x3F7FFFFE#32 % 2 ^ 126 = 0) := by decide +kernel

/-- `SynthKeepsPhaseRange`: under TC1, note 64, with a negative increment left in a slot that is not active. -/
theorem witness_SynthKeepsPhaseRange :
    let s := engine .poly 0#3 0#2 0#8 Voice.zero Voice.zero (slot 5#9 0x3F000000#32 0xBF000000#32) Voice.zero
    s.phasesInRange ∧
    ∀ i : Fin 4, (controlUpdate (tc1 []) 64#8 0#8 s).isActive i →
      F32.isFinite ((controlUpdate (tc1 []) 64#8 0#8 s).voice i).inc = true ∧
      0 ≤ F32.units ((controlUpdate (tc1 []) 64#8 0#8 s).voice i).inc := by
  unfold State.phasesInRange State.isActive
  decide +kernel

/-- `AdditiveMixHasHeadroom`: four voices under TC1 at full scale; no voice. -/
theorem witness_AdditiveMixHasHeadroom :
    (let s := engine .unison 4#3 0#2 0#8 Voice.zero Voice.zero Voice.zero Voice.zero;
      combination s.mode = .additive ∧ ∀ i : Fin 4, i.val < s.voiceCount.toNat →
        F32.inSignedUnit ((tc1 []).blSaw (s.voice i).phase (s.voice i).wti) = true) ∧
    combination State.reset.mode = .additive ∧ State.reset.voiceCount = 0#3 := by
  decide +kernel

/-- `RingMixIsMultiplicative`: two voices under TC1, one at a zero crossing (T-MX-5); no voice. -/
theorem witness_RingMixIsMultiplicative :
    (let s := engine .polyRing 2#3 2#2 0#8 (slot 0#9 0x3F400000#32 0#32) Voice.zero Voice.zero Voice.zero;
      combination s.mode = .ring ∧
      (∀ i : Fin 4, i.val < s.voiceCount.toNat →
        F32.inSignedUnit ((tc1 []).blSqr (s.voice i).phase (s.voice i).wti) = true) ∧
      ∃ i : Fin 4, i.val < s.voiceCount.toNat ∧
        F32.magUnits ((tc1 []).blSqr (s.voice i).phase (s.voice i).wti) = 0) ∧
    combination Mode.unisonRing = .ring ∧
    { State.reset with mode := .unisonRing }.voiceCount = 0#3 := by decide +kernel

/-- `DriveAtZeroIsIdentity`: a number that is not a zero, and the negative zero. -/
theorem witness_DriveAtZeroIsIdentity :
    F32.isFinite 0xBF400000#32 = true ∧ F32.magUnits 0xBF400000#32 ≠ 0 ∧
    F32.isFinite 0x80000000#32 = true ∧ F32.isFinite ((tc1 []).softClip 0#32 0xBF400000#32) = true := by
  decide +kernel

/-- The driven mix of frame 0 of `SYNTH 0, 0, 1` in Unison under TC1, all phases `p`. -/
def tc1Driven (p : Num32) : Num32 :=
  let s := engine .unison 4#3 0#2 0#8 (slot 0#9 p 0#32) (slot 0#9 p 0#32) (slot 0#9 p 0#32) (slot 0#9 p 0#32)
  drive (tc1 []) s.driveAmount (mixAt (tc1 []) (controlUpdate (tc1 []) 0#8 0#8 s) 0)

/-- `ConversionSaturates`: a driven mix of 1, of -1 and of 0 in frame 0 of one. -/
theorem witness_ConversionSaturates :
    0 < (1#12).toNat ∧
    (F32.isFinite (tc1Driven 0x3F800000#32) = true ∧ 2 ^ 149 ≤ F32.units (tc1Driven 0x3F800000#32)) ∧
    (F32.isFinite (tc1Driven 0x00000000#32) = true ∧
      F32.units (tc1Driven 0x00000000#32) ≤ -2 ^ 149) ∧
    (F32.isFinite (tc1Driven 0x3F000000#32) = true ∧ F32.units (tc1Driven 0x3F000000#32) = 0) := by
  decide +kernel

theorem witness_ConversionSaturates_default : (tc1 []).toFixed = Rc0.toFixed := rfl

/-- The clauses of `DefaultToFixedTruncatesAndSaturates`: 1, -1, -0; a value too
small; the ends of the range in which the conversion is exact. -/
theorem witness_DefaultToFixedTruncatesAndSaturates :
    (F32.isFinite 0x3F800000#32 = true ∧ 2 ^ 149 ≤ F32.units 0x3F800000#32) ∧
    (F32.isFinite 0xBF800000#32 = true ∧ F32.units 0xBF800000#32 ≤ -2 ^ 149) ∧
    (F32.isFinite 0x80000000#32 = true ∧ F32.units 0x80000000#32 = 0) ∧
    F32.magUnits 0x2FFFFFFF#32 < 2 ^ 118 ∧
    2 ^ 141 ≤ F32.magUnits 0x3B800000#32 ∧ F32.magUnits 0xBF7FFFFF#32 < 2 ^ 149 := by
  decide +kernel

/-- `StepKeepsInvariant`: a state with four voices and the cursor at 1. -/
theorem witness_StepKeepsInvariant :
    (engine .octave 4#3 1#2 80#8 (slot 255#9 0#32 0#32) (slot 267#9 0#32 0#32) (slot 255#9 0#32 0#32)
      (slot 267#9 0#32 0#32)).Inv := by
  refine ⟨⟨by decide, by decide +kernel, by decide⟩, ?_, rfl, rfl⟩
  intro h
  exact absurd h (by decide)

/-- `AddRoundsToNearestEven`, with a tie: 1 + 2^-24 lies midway between 1 and the next datum. -/
theorem witness_AddRoundsToNearestEven :
    F32.isFinite 0x3F800000#32 = true ∧ F32.isFinite 0x33800000#32 = true ∧
    F32.isFinite (F32.add 0x3F800000#32 0x33800000#32) = true ∧ F32.isFinite 0x3F800001#32 = true ∧
    F32.units 0x3F800001#32 ≠ F32.units (F32.add 0x3F800000#32 0x33800000#32) ∧
    (F32.units 0x3F800001#32 - (F32.units 0x3F800000#32 + F32.units 0x33800000#32)).natAbs =
      (F32.units (F32.add 0x3F800000#32 0x33800000#32) -
        (F32.units 0x3F800000#32 + F32.units 0x33800000#32)).natAbs := by decide +kernel

/-- `MulRoundsToNearestEven`, with a tie: the square of 1 + 2^-12 is 1 + 2^-11 + 2^-24. -/
theorem witness_MulRoundsToNearestEven :
    F32.isFinite 0x3F800800#32 = true ∧
    F32.isFinite (F32.mul 0x3F800800#32 0x3F800800#32) = true ∧ F32.isFinite 0x3F801001#32 = true ∧
    F32.units 0x3F801001#32 ≠ F32.units (F32.mul 0x3F800800#32 0x3F800800#32) ∧
    (F32.units 0x3F801001#32 * 2 ^ 149 - F32.units 0x3F800800#32 * F32.units 0x3F800800#32).natAbs =
      (F32.units (F32.mul 0x3F800800#32 0x3F800800#32) * 2 ^ 149 -
        F32.units 0x3F800800#32 * F32.units 0x3F800800#32).natAbs := by decide +kernel

/-- `DivRoundsToNearestEven`, with a tie: half of the smallest subnormal. -/
theorem witness_DivRoundsToNearestEven :
    F32.isFinite 0x00000001#32 = true ∧ F32.isFinite 0x40000000#32 = true ∧
    F32.units 0x40000000#32 ≠ 0 ∧
    F32.isFinite (F32.div 0x00000001#32 0x40000000#32) = true ∧
    F32.units 0x00000001#32 ≠ F32.units (F32.div 0x00000001#32 0x40000000#32) ∧
    (F32.units 0x00000001#32 * F32.units 0x40000000#32 - F32.units 0x00000001#32 * 2 ^ 149).natAbs =
      (F32.units (F32.div 0x00000001#32 0x40000000#32) * F32.units 0x40000000#32 -
        F32.units 0x00000001#32 * 2 ^ 149).natAbs := by decide +kernel

/-- `FloorIsGreatestInteger` and `DefaultSoftClipShape`: a negative fraction; a number above 1. -/
theorem witness_FloorIsGreatestInteger :
    F32.isFinite 0xBE800000#32 = true ∧ F32.isFinite 0x3FC00000#32 = true := by decide +kernel

end Sys2Proof.Tests
end

section
/-! The arithmetic of 00_scope.md R11 and R14: each operation packs a sign with `F32.roundMag` of the exact
magnitude, so one lemma about packing (`F32.nearestEven_pack`) carries the three rounded operations. -/

namespace Sys2Proof.Machine

/-! ## Signed exact values -/

/-- The whole number of the given sign and magnitude. -/
def F32.signed (neg : Bool) (n : Nat) : Int := if neg then -(n : Int) else n

theorem F32.units_eq_signed (x : Num32) : F32.units x = F32.signed (F32.sign x) (F32.magUnits x) := rfl

theorem F32.natAbs_signed (s : Bool) (n : Nat) : (F32.signed s n).natAbs = n := by
  unfold F32.signed
  cases s <;> simp

theorem F32.signed_not (s : Bool) (n : Nat) : F32.signed (!s) n = -F32.signed s n := by
  unfold F32.signed
  cases s <;> simp

/-- Signs multiply by exclusive or, magnitudes as whole numbers. -/
theorem F32.signed_mul (s t : Bool) (m n : Nat) :
    F32.signed s m * F32.signed t n = F32.signed (s ^^ t) (m * n) := by
  unfold F32.signed
  cases s <;> cases t <;> simp

/-- A whole number is its magnitude with its own sign; for zero any sign will do. -/
theorem F32.signed_natAbs (z : Int) (s : Bool) :
    F32.signed (if z = 0 then s else decide (z < 0)) z.natAbs = z := by
  unfold F32.signed
  by_cases h0 : z = 0
  · simp [h0]
  · simp only [if_neg h0, decide_eq_true_eq]
    omega

/-- A scaled whole number, the same way. -/
theorem F32.signed_natAbs_mul (z : Int) (s : Bool) (k : Nat) :
    F32.signed (if z = 0 then s else decide (z < 0)) (z.natAbs * k) = z * k := by
  have h := F32.signed_mul (if z = 0 then s else decide (z < 0)) false z.natAbs k
  rw [Bool.xor_false, F32.signed_natAbs] at h
  exact h.symm

/-- The value of a packed rounding, overflow included. -/
theorem F32.units_pack_roundMag (neg : Bool) (n d : Nat) :
    F32.units (F32.pack neg (F32.roundMag n d)) =
      F32.signed neg (F32.patUnits (F32.roundMag n d)) :=
  F32.units_pack neg (F32.roundMag_lt n d)

/-- A packed rounding is finite where the rounding does not overflow. -/
theorem F32.isFinite_pack_roundMag (neg : Bool) (n d : Nat) :
    F32.isFinite (F32.pack neg (F32.roundMag n d)) = true ↔ F32.roundMag n d < 0x7F800000 := by
  rw [F32.isFinite_iff, F32.mag_pack neg (F32.roundMag_lt n d)]

/-! ## The distance of signed values -/

/-- With equal signs the distance is that of the magnitudes. -/
theorem F32.natAbs_sub_signed_same (s : Bool) (u n d : Nat) :
    (F32.signed s u * d - F32.signed s n).natAbs = F32.dist u n d := by
  unfold F32.signed F32.dist
  cases s
  · simp
  · rw [← Int.natAbs_neg]
    simp only [if_true]
    congr 1
    push_cast
    ring

/-- With opposite signs the magnitudes add up. -/
theorem F32.natAbs_sub_signed_not (s : Bool) (u n d : Nat) :
    (F32.signed (!s) u * d - F32.signed s n).natAbs = u * d + n := by
  have hsum : F32.signed (!s) u * d - F32.signed s n = F32.signed (!s) (u * d + n) := by
    unfold F32.signed
    cases s
    · simp only [Bool.not_false, if_true, Bool.false_eq_true, if_false]
      push_cast
      ring
    · simp
  rw [hsum, F32.natAbs_signed]

/-- Magnitudes are no further apart than the signed values. -/
theorem F32.dist_le_natAbs_sub_signed (s t : Bool) (u n d : Nat) :
    F32.dist u n d ≤ (F32.signed s u * d - F32.signed t n).natAbs := by
  rcases Bool.eq_or_eq_not s t with rfl | rfl
  · rw [F32.natAbs_sub_signed_same]
  · rw [F32.natAbs_sub_signed_not]
    unfold F32.dist
    omega

/-! ## Correct rounding of a signed quotient -/

/-- `r` is the exact value `z / d` rounded to nearest, ties to even (00_scope.md R11): no datum is nearer,
and where a datum of another value is as near, the significand of `r` is even. Distances are scaled by
`d`. -/
def F32.NearestEven (r : Num32) (z d : Int) : Prop :=
  ∀ x : Num32, (F32.units r * d - z).natAbs ≤ (F32.units x * d - z).natAbs ∧
    (F32.units x ≠ F32.units r →
      (F32.units x * d - z).natAbs = (F32.units r * d - z).natAbs → F32.mag r % 2 = 0)

/-- The value does not change with the signs of numerator and denominator. -/
theorem F32.NearestEven.neg {r : Num32} {z d : Int} (h : F32.NearestEven r z d) :
    F32.NearestEven r (-z) (-d) := by
  have hflip : ∀ u : Int, (u * -d - -z).natAbs = (u * d - z).natAbs := by
    intro u
    rw [← Int.natAbs_neg]
    congr 1
    ring
  intro x
  rw [hflip, hflip]
  exact h x

/-- A packed rounding that does not overflow is correctly rounded. A tie with a datum of the same magnitude
pattern and the opposite sign would make the pattern stand for 0, the same value. -/
theorem F32.nearestEven_pack {neg : Bool} {n d : Nat} (hd : 0 < d)
    (hfin : F32.isFinite (F32.pack neg (F32.roundMag n d)) = true) :
    F32.NearestEven (F32.pack neg (F32.roundMag n d)) (F32.signed neg n) d := by
  rw [F32.isFinite_pack_roundMag] at hfin
  intro x
  rw [F32.units_pack_roundMag, F32.natAbs_sub_signed_same, F32.units_eq_signed x,
    F32.mag_pack neg (F32.roundMag_lt n d)]
  have hnear := F32.roundMag_nearest hd hfin (F32.mag x)
  have hle := F32.dist_le_natAbs_sub_signed (F32.sign x) neg (F32.magUnits x) n d
  refine ⟨hnear.trans hle, fun hne htie => ?_⟩
  refine F32.roundMag_tie hd hfin (p := F32.mag x) ?_ (le_antisymm (hle.trans htie.le) hnear)
  intro hmag
  have hm : F32.magUnits x = F32.patUnits (F32.roundMag n d) := by rw [← hmag]; rfl
  rw [hm] at hne htie
  have hsign : F32.sign x = !neg := Bool.eq_not_of_ne fun hs => hne (by rw [hs])
  rw [hsign, F32.natAbs_sub_signed_not] at htie
  have hzero : F32.patUnits (F32.roundMag n d) * d = 0 := by
    have h0 := F32.roundMag_nearest hd hfin 0
    rw [show F32.patUnits 0 = 0 from rfl] at h0
    unfold F32.dist at h0 htie
    omega
  have hu : F32.patUnits (F32.roundMag n d) = 0 :=
    (Nat.mul_eq_zero.mp hzero).resolve_right hd.ne'
  rw [hu] at hne
  exact hne (by simp [F32.signed])

/-! ## The three rounded operations -/

theorem F32.add_of_finite {a b : Num32} (ha : F32.isFinite a = true) (hb : F32.isFinite b = true) :
    F32.add a b = F32.pack
      (if F32.units a + F32.units b = 0 then F32.sign a && F32.sign b
        else decide (F32.units a + F32.units b < 0))
      (F32.roundMag (F32.units a + F32.units b).natAbs 1) := by
  unfold F32.add
  rw [ha, hb]
  rfl

theorem F32.mul_of_finite {a b : Num32} (ha : F32.isFinite a = true) (hb : F32.isFinite b = true) :
    F32.mul a b = F32.pack (F32.sign a ^^ F32.sign b)
      (F32.roundMag (F32.magUnits a * F32.magUnits b) F32.oneUnits) := by
  unfold F32.mul
  rw [ha, hb]
  rfl

theorem F32.div_of_finite {a b : Num32} (ha : F32.isFinite a = true) (hb : F32.isFinite b = true)
    (h0 : F32.magUnits b ≠ 0) :
    F32.div a b = F32.pack (F32.sign a ^^ F32.sign b)
      (F32.roundMag (F32.magUnits a * F32.oneUnits) (F32.magUnits b)) := by
  unfold F32.div
  rw [ha, hb, if_neg h0]
  rfl

theorem F32.nearestEven_add {a b : Num32} (ha : F32.isFinite a = true) (hb : F32.isFinite b = true)
    (hr : F32.isFinite (F32.add a b) = true) :
    F32.NearestEven (F32.add a b) (F32.units a + F32.units b) 1 := by
  rw [F32.add_of_finite ha hb] at hr ⊢
  have h := F32.nearestEven_pack Nat.one_pos hr
  rwa [F32.signed_natAbs] at h

theorem F32.nearestEven_mul {a b : Num32} (ha : F32.isFinite a = true) (hb : F32.isFinite b = true)
    (hr : F32.isFinite (F32.mul a b) = true) :
    F32.NearestEven (F32.mul a b) (F32.units a * F32.units b) (2 ^ 149) := by
  rw [F32.mul_of_finite ha hb] at hr ⊢
  rw [F32.units_eq_signed a, F32.units_eq_signed b, F32.signed_mul]
  exact F32.nearestEven_pack (by decide) hr

/-- The denominator `units b` may be negative: the rounding uses its magnitude, and the sign goes to the
numerator. -/
theorem F32.nearestEven_div {a b : Num32} (ha : F32.isFinite a = true) (hb : F32.isFinite b = true)
    (h0 : F32.units b ≠ 0) (hr : F32.isFinite (F32.div a b) = true) :
    F32.NearestEven (F32.div a b) (F32.units a * 2 ^ 149) (F32.units b) := by
  have hm : F32.magUnits b ≠ 0 := by rwa [← F32.natAbs_units, Int.natAbs_ne_zero]
  rw [F32.div_of_finite ha hb hm] at hr ⊢
  have h := F32.nearestEven_pack (Nat.pos_of_ne_zero hm) hr
  have hz : F32.units a * 2 ^ 149 = F32.signed (F32.sign a) (F32.magUnits a * F32.oneUnits) := by
    have := F32.signed_mul (F32.sign a) false (F32.magUnits a) F32.oneUnits
    rwa [Bool.xor_false] at this
  rw [hz, F32.units_eq_signed b]
  cases hs : F32.sign b
  · rw [hs, Bool.xor_false] at h
    rw [Bool.xor_false]
    exact h
  · rw [hs, Bool.xor_true, F32.signed_not] at h
    rw [Bool.xor_true]
    have hneg := h.neg
    rwa [Int.neg_neg] at hneg

/-! ## `floor` -/

theorem F32.floor_of_finite {x : Num32} (hx : F32.isFinite x = true) :
    F32.floor x = F32.pack
      (if F32.units x / 2 ^ 149 = 0 then F32.sign x else decide (F32.units x / 2 ^ 149 < 0))
      (F32.roundMag ((F32.units x / 2 ^ 149).natAbs * F32.oneUnits) 1) := by
  unfold F32.floor
  rw [hx, if_pos rfl, Int.fdiv_eq_ediv_of_nonneg _ (by decide)]
  rfl

/-- The integer below a finite datum is a finite datum: from 2^23 on every datum is an integer, below it an
integer fits the significand. -/
theorem F32.exists_pattern_floor {x : Num32} (hx : F32.isFinite x = true) :
    ∃ p, p < 0x7F800000 ∧ F32.patUnits p = (F32.units x / 2 ^ 149).natAbs * F32.oneUnits := by
  have hone : F32.oneUnits = 2 ^ 149 := rfl
  have habs := F32.natAbs_units x
  obtain ⟨k, m, hmag, hm, hk⟩ := F32.exists_shift (F32.mag x)
  have hpat : F32.patUnits (F32.mag x) = F32.magUnits x := rfl
  have hval : F32.magUnits x = m * 2 ^ k := by
    rw [← hpat, hmag, F32.patUnits_shift hm.le hk]
  rcases Nat.lt_or_ge k 149 with hk149 | hk149
  · have hlt : F32.magUnits x < 2 ^ 23 * 2 ^ 149 := by
      calc F32.magUnits x = m * 2 ^ k := hval
        _ < 2 ^ 24 * 2 ^ k := Nat.mul_lt_mul_of_pos_right hm (by positivity)
        _ ≤ 2 ^ 24 * 2 ^ 148 := Nat.mul_le_mul_left _ (Nat.pow_le_pow_right (by decide) (by omega))
        _ = 2 ^ 23 * 2 ^ 149 := by norm_num
    have hz : (F32.units x / 2 ^ 149).natAbs ≤ 2 ^ 23 := by omega
    refine F32.exists_pattern (k := 149) rfl (by omega) ?_
    rw [hone]
    omega
  · have hdvd : (2 ^ 149 : Int) ∣ F32.units x := by
      have h : 2 ^ 149 ∣ (F32.units x).natAbs := by
        rw [habs, hval]
        exact Dvd.dvd.mul_left (Nat.pow_dvd_pow 2 hk149) m
      exact_mod_cast Int.natCast_dvd.mpr h
    refine ⟨F32.mag x, (F32.isFinite_iff x).mp hx, ?_⟩
    have hone_abs : (2 ^ 149 : Int).natAbs = F32.oneUnits := Int.natAbs_pow 2 149
    rw [hpat, ← habs, ← hone_abs, ← Int.natAbs_mul, Int.ediv_mul_cancel hdvd]

/-! ## The statements of the family -/

/-- Settles O43, by the correct rounding of a packed exact sum. -/
theorem addRoundsToNearestEven : Obligations.AddRoundsToNearestEven := by
  unfold Obligations.AddRoundsToNearestEven
  intro a b x ha hb hr _
  simpa only [Int.mul_one] using F32.nearestEven_add ha hb hr x

/-- Settles O44, by the correct rounding of a packed exact product. -/
theorem mulRoundsToNearestEven : Obligations.MulRoundsToNearestEven := by
  unfold Obligations.MulRoundsToNearestEven
  intro a b x ha hb hr _
  exact F32.nearestEven_mul ha hb hr x

/-- Settles O45, by the correct rounding of a packed exact quotient. -/
theorem divRoundsToNearestEven : Obligations.DivRoundsToNearestEven := by
  unfold Obligations.DivRoundsToNearestEven
  intro a b x ha hb h0 hr _
  exact F32.nearestEven_div ha hb h0 hr x

/-- Settles O46: the integer below is a pattern's value, which rounding keeps. -/
theorem floorIsGreatestInteger : Obligations.FloorIsGreatestInteger := by
  unfold Obligations.FloorIsGreatestInteger
  intro x hx
  obtain ⟨p, hp, hpat⟩ := F32.exists_pattern_floor hx
  have hexact : F32.roundMag ((F32.units x / 2 ^ 149).natAbs * F32.oneUnits) 1 = p := by
    rw [← hpat, ← Nat.mul_one (F32.patUnits p), F32.roundMag_exact Nat.one_pos hp]
  rw [F32.floor_of_finite hx]
  constructor
  · rwa [F32.isFinite_pack_roundMag, hexact]
  · rw [F32.units_pack_roundMag, hexact, hpat, F32.signed_natAbs_mul]
    rfl

end Sys2Proof.Machine
end

section
/-! The state family (10_state.md): what a whole `SYNTH` leaves, field by field and slot by slot, and the
invariants of R40. The registers are those the control update leaves, and the frame loop only advances the
phases of the active slots. -/

namespace Sys2Proof.Machine

/-! ## The frame loop -/

/-- What the frame loop never writes (40_synth.md R104). -/
theorem frameLoop_frame (c : Cfg) (n : Nat) (s : State) :
    (frameLoop c n s).mode = s.mode ∧ (frameLoop c n s).driveAmount = s.driveAmount ∧
    (frameLoop c n s).detuneAmount = s.detuneAmount ∧
    (frameLoop c n s).voiceCount = s.voiceCount ∧ (frameLoop c n s).nextSlot = s.nextSlot ∧
    (frameLoop c n s).lastNoteSeen = s.lastNoteSeen ∧ (frameLoop c n s).cmdReady = s.cmdReady ∧
    (frameLoop c n s).cmds = s.cmds ∧ (frameLoop c n s).draws = s.draws := by
  induction n generalizing s with
  | zero => exact ⟨rfl, rfl, rfl, rfl, rfl, rfl, rfl, rfl, rfl⟩
  | succ n ih =>
    obtain ⟨a1, a2, a3, a4, a5, a6, a7, -, a9, -, a11⟩ := advanceAll_frame s
    have h := ih (frame c (n == 0) s)
    simpa only [frameLoop, frame_eq, State.emit_mode, State.emit_driveAmount,
      State.emit_detuneAmount, State.emit_voiceCount, State.emit_nextSlot, State.emit_lastNoteSeen,
      State.emit_cmdReady, State.emit_cmds, State.emit_draws,
      a1, a2, a3, a4, a5, a6, a7, a9, a11] using h

/-- A slot after one frame: its phase advanced where it is active. -/
theorem frame_voice (c : Cfg) (last : Bool) (s : State) (i : Fin 4) :
    (frame c last s).voice i =
      if i.val < s.voiceCount.toNat then
        { s.voice i with phase := nextPhase (s.voice i).phase (s.voice i).inc }
      else s.voice i := by
  rw [frame_eq, State.voice_emit, advanceAll_voice]

@[simp] theorem frame_voiceCount (c : Cfg) (last : Bool) (s : State) :
    (frame c last s).voiceCount = s.voiceCount := by
  obtain ⟨-, -, -, h, -⟩ := advanceAll_frame s
  rw [frame_eq, State.emit_voiceCount, h]

/-- A slot after `n` frames: its phase advanced `n` times where it is active. -/
theorem frameLoop_voice (c : Cfg) (n : Nat) (s : State) (i : Fin 4) :
    (frameLoop c n s).voice i =
      if i.val < s.voiceCount.toNat then { s.voice i with phase := phaseAfter (s.voice i) n }
      else s.voice i := by
  induction n generalizing s with
  | zero => exact (ite_self _).symm
  | succ n ih =>
    rw [frameLoop, ih, frame_voiceCount, frame_voice]
    split
    · rw [phaseAfter_advanced]
    · rfl

/-! ## The whole `SYNTH` -/

/-- The registers outside the voice file, and the `CMD` port, after a `SYNTH`: the allocator decides the
count, the cursor and the last note; `smp_valid` is 0. -/
theorem synth_frame (c : Cfg) (note mod : BitVec 8) (frames : BitVec 12) (s : State) :
    (synth c note mod frames s).mode = s.mode ∧
    (synth c note mod frames s).driveAmount = s.driveAmount ∧
    (synth c note mod frames s).detuneAmount = s.detuneAmount ∧
    (synth c note mod frames s).voiceCount = (alloc c note s).voiceCount ∧
    (synth c note mod frames s).nextSlot = (alloc c note s).nextSlot ∧
    (synth c note mod frames s).lastNoteSeen = (alloc c note s).lastNoteSeen ∧
    (synth c note mod frames s).cmdReady = s.cmdReady ∧
    (synth c note mod frames s).cmds = s.cmds ∧
    (synth c note mod frames s).smpValid = false := by
  obtain ⟨l1, l2, l3, l4, l5, l6, l7, l8, -⟩ :=
    frameLoop_frame c frames.toNat (controlUpdate c note mod s)
  obtain ⟨u1, u2, u3, u7, u8, -⟩ := controlUpdate_frame c note mod s
  obtain ⟨u4, u5, u6, -⟩ := controlUpdate_alloc c note mod s
  exact ⟨l1.trans u1, l2.trans u2, l3.trans u3, l4.trans u4, l5.trans u5, l6.trans u6, l7.trans u7,
    l8.trans u8, rfl⟩

/-- A slot after a `SYNTH`: that of the control update, its phase advanced once per frame where the slot is
active after it. -/
theorem synth_voice (c : Cfg) (note mod : BitVec 8) (frames : BitVec 12) (s : State) (i : Fin 4) :
    (synth c note mod frames s).voice i =
      if i.val < (controlUpdate c note mod s).voiceCount.toNat then
        { (controlUpdate c note mod s).voice i with
          phase := phaseAfter ((controlUpdate c note mod s).voice i) frames.toNat }
      else (controlUpdate c note mod s).voice i :=
  frameLoop_voice c frames.toNat (controlUpdate c note mod s) i

/-- The note and the table index of a slot after a `SYNTH` are those the allocator leaves. -/
theorem synth_note_wti (c : Cfg) (note mod : BitVec 8) (frames : BitVec 12) (s : State) (i : Fin 4) :
    ((synth c note mod frames s).voice i).note = ((alloc c note s).voice i).note ∧
    ((synth c note mod frames s).voice i).wti = ((alloc c note s).voice i).wti := by
  obtain ⟨-, -, -, h⟩ := controlUpdate_alloc c note mod s
  rw [synth_voice]
  split <;> exact h i

/-- A slot that is not active after a `SYNTH` is as the allocator leaves it. -/
theorem synth_voice_inactive (c : Cfg) (note mod : BitVec 8) (frames : BitVec 12) (s : State)
    {i : Fin 4} (h : (alloc c note s).voiceCount.toNat ≤ i.val) :
    (synth c note mod frames s).voice i = (alloc c note s).voice i := by
  obtain ⟨hcount, -⟩ := controlUpdate_alloc c note mod s
  obtain ⟨-, hvoice⟩ := resolve_spec c mod (alloc c note s)
  rw [synth_voice, hcount, if_neg (Nat.not_lt.mpr h), controlUpdate, hvoice i,
    if_neg (Nat.not_lt.mpr h)]

/-! ## The allocator and the invariants (R40; 41_allocator.md R113 g) -/

/-- Any slot where `ALLOC.POLY` allocates. -/
theorem alloc_voice_newNote {c : Cfg} {base : BitVec 8} {s : State}
    (h : alloc c base s =
      { setVoice c s.nextSlot.toFin (baseNote9 base) s with
        nextSlot := s.nextSlot + 1#2
        voiceCount := bumpCount s.voiceCount
        lastNoteSeen := base }) (i : Fin 4) :
    (alloc c base s).voice i = (setVoice c s.nextSlot.toFin (baseNote9 base) s).voice i := by
  rw [h]
  rfl

theorem baseNote9_toNat (base : BitVec 8) : (baseNote9 base).toNat = base.toNat :=
  BitVec.toNat_setWidth_of_le (by decide)

/-- The second voice of a pair is at most an octave up, and the sum does not wrap. -/
theorem allocPolicy_pair_le {m : Mode} {off : BitVec 9} (h : allocPolicy m = .pair off) :
    off.toNat ≤ 12 := by
  cases m <;> cases h <;> decide

theorem allocFull_note_le {c : Cfg} {n0 n1 : BitVec 9} {s : State} {b : Nat} (h0 : n0.toNat ≤ b)
    (h1 : n1.toNat ≤ b) (i : Fin 4) : ((allocFull c n0 n1 s).voice i).note.toNat ≤ b := by
  rw [allocFull_voice]
  dsimp only
  split <;> assumption

/-- The four modes whose policy rebuilds all slots (R22). -/
theorem alloc_of_fullReset (c : Cfg) (base : BitVec 8) {s : State}
    (h : s.mode = .unison ∨ s.mode = .octave ∨ s.mode = .fifth ∨ s.mode = .unisonRing) :
    ∃ n0 n1, alloc c base s = allocFull c n0 n1 s := by
  unfold alloc
  rcases h with h | h | h | h <;> rw [h] <;> exact ⟨_, _, rfl⟩

/-- The stage keeps every note at most 267: the base note is at most 255, an offset at most 12 (R29). -/
theorem alloc_note_le (c : Cfg) (base : BitVec 8) {s : State}
    (hs : ∀ i : Fin 4, (s.voice i).note.toNat ≤ 267) (i : Fin 4) :
    ((alloc c base s).voice i).note.toNat ≤ 267 := by
  have hbase : (baseNote9 base).toNat ≤ 255 := by
    have := base.isLt
    rw [baseNote9_toNat]
    omega
  obtain ⟨-, -, h⟩ | ⟨-, -, h⟩ | ⟨off, hp, h⟩ | ⟨-, h⟩ := alloc_cases c base s
  · rw [alloc_voice_newNote h, setVoice_voice]
    split
    · exact hbase.trans (by decide)
    · exact hs i
  · rw [h]
    exact hs i
  · rw [h]
    have hoff := allocPolicy_pair_le hp
    refine allocFull_note_le (by omega) ?_ i
    rw [BitVec.toNat_add]
    omega
  · rw [h]
    exact allocFull_note_le (by omega) (by omega) i

theorem alloc_voiceCount_le (c : Cfg) (base : BitVec 8) {s : State} (hs : s.voiceCount.toNat ≤ 4) :
    (alloc c base s).voiceCount.toNat ≤ 4 := by
  obtain ⟨-, -, h⟩ | ⟨-, -, h⟩ | ⟨off, -, h⟩ | ⟨-, h⟩ := alloc_cases c base s
  · rw [h, bumpCount_toNat]
    exact Nat.min_le_right _ _
  · rwa [h]
  all_goals
    rw [h]
    exact le_refl 4

/-- The cursor rule: both advance together until the count is 4, and a full reset sets the count to 4. -/
theorem alloc_cursorFollows (c : Cfg) (base : BitVec 8) {s : State} (hs : s.cursorFollows) :
    (alloc c base s).cursorFollows := by
  obtain ⟨-, -, h⟩ | ⟨-, -, h⟩ | ⟨off, -, h⟩ | ⟨-, h⟩ := alloc_cases c base s
  · rw [h]
    unfold State.cursorFollows at hs ⊢
    dsimp only
    rw [bumpCount_toNat, BitVec.toNat_add, show (1#2).toNat = 1 from rfl]
    intro hlt
    have := hs (by omega)
    omega
  · rwa [h]
  all_goals
    rw [h]
    exact fun hlt => absurd hlt (lt_irrefl 4)

/-- The stage leaves the slots above the count it decides: the slot `ALLOC.POLY` allocates is the first one
above the old count (R33). -/
theorem alloc_voice_inactive (c : Cfg) (base : BitVec 8) {s : State} (hs : s.cursorFollows)
    {i : Fin 4} (hi : (alloc c base s).voiceCount.toNat ≤ i.val) :
    (alloc c base s).voice i = s.voice i := by
  obtain ⟨-, -, h⟩ | ⟨-, -, h⟩ | ⟨off, -, h⟩ | ⟨-, h⟩ := alloc_cases c base s
  · rw [alloc_voice_newNote h, setVoice_voice, if_neg]
    rintro rfl
    rw [h] at hi
    dsimp only at hi
    rw [bumpCount_toNat, BitVec.val_toFin] at hi
    have hslot := s.nextSlot.isLt
    have := hs (by omega)
    omega
  · rw [h]
  all_goals
    rw [h] at hi
    exact absurd hi (Nat.not_le.mpr i.isLt)

/-! ## The reset values (R39) -/

theorem State.voice_reset (i : Fin 4) : State.reset.voice i = Voice.zero := VoiceFile.get_zero i

theorem State.registersZero_reset : State.reset.registersZero := by
  refine ⟨rfl, rfl, rfl, rfl, rfl, rfl, fun i => ?_⟩
  rw [State.voice_reset]
  exact ⟨rfl, rfl, rfl, rfl⟩

/-- Zeroing the registers gives each its reset value, whatever the state before. -/
theorem State.registersZero_zeroRegisters (s : State) : s.zeroRegisters.registersZero := by
  refine ⟨rfl, rfl, rfl, rfl, rfl, rfl, fun i => ?_⟩
  rw [State.voice_zeroRegisters]
  exact ⟨rfl, rfl, rfl, rfl⟩

/-! ## The invariant of the machine -/

/-- The invariant while an operation runs: that between operations, but for `cmd_ready` (20_memory.md R52). -/
def State.InvBusy (s : State) : Prop := s.registersLegal ∧ s.cursorFollows ∧ s.smpValid = false

theorem State.InvBusy.complete {s : State} (h : s.InvBusy) : s.complete.Inv := by
  obtain ⟨hregs, hcursor, hvalid⟩ := h
  exact ⟨hregs, hcursor, rfl, hvalid⟩

theorem State.Inv.transfer {s t : State} {w : CmdWord} (h : s.Inv) (ht : s.transfer = some (w, t)) :
    t.InvBusy := by
  obtain ⟨hregs, hcursor, -, hvalid⟩ := h
  obtain ⟨-, -, ht⟩ := (s.transfer_some w t).mp ht
  rw [ht]
  exact ⟨hregs, hcursor, hvalid⟩

theorem State.zeroRegisters_invBusy {s : State} (h : s.smpValid = false) :
    s.zeroRegisters.InvBusy := by
  refine ⟨⟨by simp, ?_, fun i => ?_⟩, fun _ => rfl, h⟩
  · rw [State.zeroRegisters_driveAmount]
    decide +kernel
  · rw [State.voice_zeroRegisters]
    decide

theorem synth_invBusy (c : Cfg) (note mod : BitVec 8) (frames : BitVec 12) {s : State}
    (h : s.InvBusy) : (synth c note mod frames s).InvBusy := by
  obtain ⟨⟨hcount, hdrive, hnotes⟩, hcursor, -⟩ := h
  obtain ⟨-, fdrive, -, fcount, fslot, -, -, -, fvalid⟩ := synth_frame c note mod frames s
  refine ⟨⟨?_, ?_, fun i => ?_⟩, ?_, fvalid⟩
  · rw [fcount]
    exact alloc_voiceCount_le c note hcount
  · rwa [fdrive]
  · rw [(synth_note_wti c note mod frames s i).1]
    exact alloc_note_le c note hnotes i
  · unfold State.cursorFollows
    rw [fcount, fslot]
    exact alloc_cursorFollows c note hcursor

/-- Stated of any `d`, so that the fields `d` does not touch are compared without computing it. -/
theorem State.InvBusy.setDrive {s : State} (h : s.InvBusy) {d : Num32} (hd : F32.inUnit d = true) :
    ({ s with driveAmount := d } : State).InvBusy := by
  obtain ⟨⟨hcount, -, hnotes⟩, hcursor, hvalid⟩ := h
  exact ⟨⟨hcount, hd, hnotes⟩, hcursor, hvalid⟩

/-- The machine's drive amount is a clip to [0, 1]. -/
theorem driveOfValue_inUnit (v : BitVec 16) : F32.inUnit (driveOfValue Config.cfg v) = true :=
  Prim.clip01_inUnit _ _

/-! Each remaining operation's answer, by name of its meaning. -/

theorem exec_noteOn (np : BitVec 28) (s : State) :
    exec (.noteOn np) s = .next { s with voiceCount := 0#3, nextSlot := 0#2 } := rfl

theorem exec_noteOff (np : BitVec 28) (s : State) : exec (.noteOff np) s = .next s := rfl

theorem exec_setpDrive (v : BitVec 16) (s : State) :
    exec (.setpDrive v) s = .next { s with driveAmount := driveOfValue Config.cfg v } := rfl

theorem exec_setpDetune (v : BitVec 16) (s : State) :
    exec (.setpDetune v) s = .next { s with detuneAmount := Config.cfg.paramToFloat v } := rfl

theorem exec_setpAux (v : BitVec 16) (s : State) : exec (.setpAux v) s = .next s := rfl

/-- Every operation runs and keeps the invariant. -/
theorem exec_invBusy (i : Instr) {s : State} (h : s.InvBusy) : ∃ t, exec i s = .next t ∧ t.InvBusy := by
  have ⟨⟨hcount, hdrive, hnotes⟩, hcursor, hvalid⟩ := h
  cases i with
  | init plat api => exact ⟨_, exec_init plat api s, State.zeroRegisters_invBusy hvalid⟩
  | synth note mod frames =>
    exact ⟨_, exec_synth note mod frames s, synth_invBusy _ note mod frames h⟩
  | noteOn np =>
    exact ⟨_, exec_noteOn np s, ⟨Nat.zero_le 4, hdrive, hnotes⟩, fun _ => rfl, hvalid⟩
  | noteOff np => exact ⟨s, exec_noteOff np s, h⟩
  | setpMode v => exact ⟨_, exec_setpMode v s, ⟨hcount, hdrive, hnotes⟩, hcursor, hvalid⟩
  | setpDrive v => exact ⟨_, exec_setpDrive v s, h.setDrive (driveOfValue_inUnit v)⟩
  | setpDetune v => exact ⟨_, exec_setpDetune v s, ⟨hcount, hdrive, hnotes⟩, hcursor, hvalid⟩
  | setpAux v => exact ⟨s, exec_setpAux v s, h⟩

/-! ## Agreement on a register (R34) -/

theorem State.agreeOn_refl (s : State) (r : Register) : s.agreeOn s r := by
  cases r <;> rfl

/-! ## The three kinds of step, forward -/

theorem step_of_no_transfer {s : State} (h : s.transfer = none) : step s = .next s := by
  unfold step
  rw [h]

theorem step_of_operation {s t u : State} {w : CmdWord} {i : Instr} (ht : s.transfer = some (w, t))
    (hd : decode w = .operation i) (hx : exec i t = .next u) : step s = .next u.complete := by
  unfold step
  simp only [ht, hd, hx]

theorem step_of_reserved {s t : State} {w : CmdWord} {r : Reserved} (ht : s.transfer = some (w, t))
    (hd : decode w = .reserved r) : step s = .next t.complete := by
  unfold step
  simp only [ht, hd]

/-! ## Phases (R31; 43_phase_waveform.md R157) -/

theorem F32.inPhaseRange_iff (x : Num32) :
    F32.inPhaseRange x = true ↔
      F32.isFinite x = true ∧ 0 ≤ F32.units x ∧ F32.units x < 2 ^ 149 := by
  unfold F32.inPhaseRange F32.oneUnits
  rw [Bool.and_eq_true, Bool.and_eq_true, decide_eq_true_eq, decide_eq_true_eq, and_assoc]
  norm_num

/-- A sum whose exact value a finite pattern stands for is exact. -/
theorem F32.add_exact {a b : Num32} (ha : F32.isFinite a = true) (hb : F32.isFinite b = true)
    {p : Nat} (hp : p < 0x7F800000) (hsum : F32.patUnits p = (F32.units a + F32.units b).natAbs) :
    F32.isFinite (F32.add a b) = true ∧ F32.units (F32.add a b) = F32.units a + F32.units b := by
  have hround : F32.roundMag (F32.units a + F32.units b).natAbs 1 = p := by
    rw [← hsum, ← Nat.mul_one (F32.patUnits p), F32.roundMag_exact Nat.one_pos hp]
  rw [F32.add_of_finite ha hb]
  constructor
  · rwa [F32.isFinite_pack_roundMag, hround]
  · rw [F32.units_pack_roundMag, hround, hsum, F32.signed_natAbs]

/-- Rounding keeps a sum from being negative. -/
theorem F32.add_nonneg {a b : Num32} (ha : F32.isFinite a = true) (hb : F32.isFinite b = true)
    (h : 0 ≤ F32.units a + F32.units b) : 0 ≤ F32.units (F32.add a b) := by
  rw [F32.add_of_finite ha hb, F32.units_pack_roundMag]
  by_cases h0 : F32.units a + F32.units b = 0
  · rw [h0, Int.natAbs_zero, show F32.patUnits (F32.roundMag 0 1) = 0 by decide]
    simp [F32.signed]
  · rw [if_neg h0, decide_eq_false (by omega)]
    exact Int.natCast_nonneg _

/-- Overflow begins midway between the largest finite magnitude and 2^277: below that, rounding stays
finite. -/
theorem F32.roundMag_finite {n : Nat} (h : n < 2 ^ 277 - 2 ^ 252) : F32.roundMag n 1 < 0x7F800000 := by
  obtain ⟨k, hr, hm, hk⟩ := F32.roundMag_shift (n := n) (d := 1) Nat.one_pos
  suffices k * 2 ^ 23 + F32.roundDiv n (1 * 2 ^ k) < 0x7F800000 by omega
  have hk254 : k < 254 := by
    rcases hk with rfl | ⟨-, hn⟩
    · decide
    · have : 2 ^ (23 + k) < 2 ^ 277 := by omega
      have := (Nat.pow_lt_pow_iff_right (by decide)).mp this
      omega
  rcases Nat.lt_or_ge k 253 with hlt | hge
  · omega
  · obtain rfl : k = 253 := by omega
    have hsig : F32.roundDiv n (1 * 2 ^ 253) ≤ 2 ^ 24 - 1 := by
      unfold F32.roundDiv
      split
      · omega
      · split <;> omega
    omega

theorem F32.magUnits_finite_le {x : Num32} (h : F32.isFinite x = true) :
    F32.magUnits x ≤ 2 ^ 277 - 2 ^ 253 := by
  have hmax : F32.patUnits 0x7F7FFFFF = 2 ^ 277 - 2 ^ 253 := by decide +kernel
  rw [← hmax]
  rw [F32.isFinite_iff] at h
  exact F32.patUnits_le_iff.mpr (by omega)

/-- The fraction of a datum fits its significand. -/
theorem F32.exists_pattern_fraction (x : Num32) :
    ∃ p, p < 0x7F800000 ∧ F32.patUnits p = F32.magUnits x % 2 ^ 149 := by
  obtain ⟨k, m, hmag, hm, hk⟩ := F32.exists_shift (F32.mag x)
  have hval : F32.magUnits x = m * 2 ^ k := by
    unfold F32.magUnits
    rw [hmag, F32.patUnits_shift hm.le hk]
  rw [hval]
  rcases Nat.lt_or_ge k 149 with hlt | hge
  · have hsplit : 2 ^ 149 = 2 ^ (149 - k) * 2 ^ k := by
      rw [← Nat.pow_add, Nat.sub_add_cancel hlt.le]
    have hbound : m * 2 ^ k % 2 ^ 149 < 2 ^ 149 := Nat.mod_lt _ (by decide)
    refine F32.exists_pattern (m := m % 2 ^ (149 - k)) (k := k) ?_
      ((Nat.mod_le _ _).trans_lt hm) (hbound.trans (by decide))
    rw [hsplit, Nat.mul_mod_mul_right]
  · refine ⟨0, by decide, ?_⟩
    rw [Nat.mod_eq_zero_of_dvd (Dvd.dvd.mul_left (Nat.pow_dvd_pow 2 hge) m)]
    decide

/-- `x - floor(x)` of a number that is not negative is its fraction, exactly. -/
theorem F32.sub_floor_exact {x : Num32} (hx : F32.isFinite x = true) (h0 : 0 ≤ F32.units x) :
    F32.isFinite (F32.sub x (F32.floor x)) = true ∧
    F32.units (F32.sub x (F32.floor x)) = F32.units x % 2 ^ 149 := by
  obtain ⟨hfin, hfloor⟩ := floorIsGreatestInteger x hx
  obtain ⟨p, hp, hpat⟩ := F32.exists_pattern_fraction x
  have hdiff : F32.units x + F32.units (F32.neg (F32.floor x)) = F32.units x % 2 ^ 149 := by
    rw [F32.units_neg, hfloor]
    omega
  have habs := F32.natAbs_units x
  rw [← hdiff]
  refine F32.add_exact hx (by rwa [F32.isFinite_neg]) hp ?_
  rw [hpat, hdiff]
  omega

/-- One frame keeps a phase in [0, 1) where the increment is finite and not negative: the sum does not
overflow, and its fraction is exact. -/
theorem nextPhase_inPhaseRange {phase inc : Num32} (hp : F32.inPhaseRange phase = true)
    (hf : F32.isFinite inc = true) (h0 : 0 ≤ F32.units inc) :
    F32.inPhaseRange (nextPhase phase inc) = true := by
  obtain ⟨hpf, hp0, hp1⟩ := (F32.inPhaseRange_iff phase).mp hp
  have hsum : F32.isFinite (F32.add phase inc) = true := by
    have hmax := F32.magUnits_finite_le hf
    have habs := F32.natAbs_units inc
    rw [F32.add_of_finite hpf hf, F32.isFinite_pack_roundMag]
    exact F32.roundMag_finite (by omega)
  obtain ⟨hfin, hval⟩ := F32.sub_floor_exact hsum (F32.add_nonneg hpf hf (by omega))
  rw [F32.inPhaseRange_iff, nextPhase, hval]
  exact ⟨hfin, Int.emod_nonneg _ (by decide), Int.emod_lt_of_pos _ (by decide)⟩

theorem phaseAfter_inPhaseRange {v : Voice} (hp : F32.inPhaseRange v.phase = true)
    (hf : F32.isFinite v.inc = true) (h0 : 0 ≤ F32.units v.inc) (k : Nat) :
    F32.inPhaseRange (phaseAfter v k) = true := by
  induction k with
  | zero => exact hp
  | succ k ih => exact nextPhase_inPhaseRange ih hf h0

/-! ## The statements of the family -/


/-- Settles O42: a word is transferred, the operation keeps the invariant, and its completion sets
`cmd_ready` again. -/
theorem stepKeepsInvariant : Obligations.StepKeepsInvariant := by
  unfold Obligations.StepKeepsInvariant
  intro s hs
  cases ht : s.transfer with
  | none => exact ⟨s, step_of_no_transfer ht, hs⟩
  | some wt =>
    obtain ⟨w, t⟩ := wt
    have hbusy := hs.transfer ht
    cases hd : decode w with
    | operation i =>
      obtain ⟨u, hx, hu⟩ := exec_invBusy i hbusy
      exact ⟨_, step_of_operation ht hd hx, hu.complete⟩
    | reserved r => exact ⟨_, step_of_reserved ht hd, hbusy.complete⟩

/-- Settles O21, operation by operation: the registers it may write leave nothing to show, the others are
those of the state before. -/
theorem onlyListedWritersWrite : Obligations.OnlyListedWritersWrite := by
  unfold Obligations.OnlyListedWritersWrite
  intro i s
  cases i with
  | init plat api => exact ⟨_, exec_init plat api s, fun r hr => nomatch hr⟩
  | synth note mod frames =>
    obtain ⟨hmode, hdrive, hdetune, -⟩ := synth_frame Config.cfg note mod frames s
    refine ⟨_, exec_synth note mod frames s, fun r hr => ?_⟩
    cases r with
    | mode => exact hmode.symm
    | driveAmount => exact hdrive.symm
    | detuneAmount => exact hdetune.symm
    | voiceCount | nextSlot | lastNoteSeen | voices => cases hr
  | noteOn np =>
    refine ⟨_, exec_noteOn np s, fun r hr => ?_⟩
    cases r with
    | voiceCount | nextSlot => cases hr
    | _ => rfl
  | noteOff np => exact ⟨s, exec_noteOff np s, fun r _ => State.agreeOn_refl s r⟩
  | setpMode v =>
    refine ⟨_, exec_setpMode v s, fun r hr => ?_⟩
    cases r with
    | mode => cases hr
    | _ => rfl
  | setpDrive v =>
    refine ⟨_, exec_setpDrive v s, fun r hr => ?_⟩
    cases r with
    | driveAmount => cases hr
    | _ => rfl
  | setpDetune v =>
    refine ⟨_, exec_setpDetune v s, fun r hr => ?_⟩
    cases r with
    | detuneAmount => cases hr
    | _ => rfl
  | setpAux v => exact ⟨s, exec_setpAux v s, fun r _ => State.agreeOn_refl s r⟩

/-- Settles O24: the allocator leaves the slots above the count it decides, the resolver and the frame loop
those that are not active. -/
theorem inactiveSlotsAreKept : Obligations.InactiveSlotsAreKept := by
  unfold Obligations.InactiveSlotsAreKept
  intro s note mod frames _ hcursor
  refine ⟨_, exec_synth note mod frames s, fun i hi => ?_⟩
  obtain ⟨-, -, -, hcount, -⟩ := synth_frame Config.cfg note mod frames s
  rw [hcount] at hi
  rw [synth_voice_inactive _ _ _ _ _ hi, alloc_voice_inactive _ _ hcursor hi]

/-- Settles O29: a full reset gives every slot the table index of its note, whatever the slot held. -/
theorem fullResetHealsTableIndex : Obligations.FullResetHealsTableIndex := by
  unfold Obligations.FullResetHealsTableIndex
  intro s note mod frames hmode
  refine ⟨_, exec_synth note mod frames s, fun i => ?_⟩
  obtain ⟨hkeep, -⟩ := synth_frame Config.cfg note mod frames s
  obtain ⟨hnote, hwti⟩ := synth_note_wti Config.cfg note mod frames s i
  obtain ⟨n0, n1, hfull⟩ := alloc_of_fullReset Config.cfg note hmode
  unfold State.indexFresh
  rw [hkeep, hnote, hwti, hfull, allocFull_voice]

/-- Settles O37: each frame keeps an active slot's phase in range, and the others stand. -/
theorem synthKeepsPhaseRange : Obligations.SynthKeepsPhaseRange := by
  unfold Obligations.SynthKeepsPhaseRange
  intro c s note mod frames hphase hinc i
  have hi : F32.inPhaseRange ((controlUpdate c note mod s).voice i).phase = true := by
    rw [controlUpdate_phase]
    exact hphase i
  rw [synth_voice]
  split
  · next hactive =>
    obtain ⟨hf, h0⟩ := hinc i hactive
    exact phaseAfter_inPhaseRange hi hf h0 frames.toNat
  · exact hi

/-- Settles O11: the literal registers of `State.reset`, and those `INIT` writes. -/
theorem resetAndInitValues : Obligations.ResetAndInitValues := by
  unfold Obligations.ResetAndInitValues
  refine ⟨State.registersZero_reset, fun s plat api => ?_⟩
  exact ⟨_, exec_init plat api s, State.registersZero_zeroRegisters s⟩

end Sys2Proof.Machine
end

section
/-! The port family (20_memory.md): what an operation does to the ports, the words still to be issued and the
words emitted. The seven lifecycle operations write registers only, and a `SYNTH` appends one word per frame. -/

namespace Sys2Proof.Machine

/-! ## The transfer of the offered word (R52) -/

/-- The offered word is the one transferred, and its operation runs with `cmd_ready` 0. -/
theorem State.offered.transfer {s : State} {w : CmdWord} {rest : List CmdWord}
    (h : s.offered w rest) :
    s.transfer = some (w, { s with cmds := rest, cmdReady := false }) := by
  obtain ⟨hready, hcmds⟩ := h
  exact (s.transfer_some w _).mpr ⟨hready, hcmds, rfl⟩

/-! ## The words a `SYNTH` emits (R53, R54) -/

/-- One frame appends one word to the stream. -/
theorem frame_smp (c : Cfg) (last : Bool) (s : State) :
    (frame c last s).smp =
      s.smp ++ [{ data := c.toFixed (drive c s.driveAmount (mixAt c s 0)), last := last }] := by
  obtain ⟨-, -, -, -, -, -, -, -, -, hsmp, -⟩ := advanceAll_frame s
  rw [frame_eq, State.emit_smp, hsmp]

/-- `n` frames append `n` words to the stream. -/
theorem frameLoop_smp (c : Cfg) (n : Nat) (s : State) :
    ∃ beats, (frameLoop c n s).smp = s.smp ++ beats ∧ beats.length = n := by
  induction n generalizing s with
  | zero => exact ⟨[], (List.append_nil _).symm, rfl⟩
  | succ n ih =>
    obtain ⟨beats, hsmp, hlen⟩ := ih (frame c (n == 0) s)
    rw [frame_smp, List.append_assoc] at hsmp
    exact ⟨_, hsmp, by simp [hlen]⟩

/-- A `SYNTH` appends as many words as it has frames: the control update emits nothing. -/
theorem synth_smp (c : Cfg) (note mod : BitVec 8) (frames : BitVec 12) (s : State) :
    ∃ beats, (synth c note mod frames s).smp = s.smp ++ beats ∧ beats.length = frames.toNat := by
  obtain ⟨beats, hsmp, hlen⟩ := frameLoop_smp c frames.toNat (controlUpdate c note mod s)
  obtain ⟨-, -, -, -, -, hupdate⟩ := controlUpdate_frame c note mod s
  rw [hupdate] at hsmp
  exact ⟨beats, hsmp, hlen⟩

/-! ## The lifecycle operations write registers only (R58) -/

theorem State.sameOutside_refl (s : State) : s.sameOutside s := ⟨rfl, rfl, rfl, rfl, rfl⟩

/-- Stated of any `d`, so that the other fields are compared without computing it. -/
theorem State.sameOutside_setDrive (s : State) (d : Num32) :
    ({ s with driveAmount := d } : State).sameOutside s := s.sameOutside_refl

/-- Selecting a mode again selects the same one; a value that names none still names none. -/
theorem exec_setpMode_again (v : BitVec 16) (s : State) :
    exec (.setpMode v) { s with mode := (modeOfValue v).getD s.mode } =
      .next { s with mode := (modeOfValue v).getD s.mode } := by
  rw [exec_setpMode]
  cases modeOfValue v <;> rfl

/-- Settles O20, operation by operation: what each writes into the registers, if anything, its operand alone
decides, so writing it again changes nothing. -/
theorem lifecycleIsSilentAndIdempotent : Obligations.LifecycleIsSilentAndIdempotent := by
  unfold Obligations.LifecycleIsSilentAndIdempotent
  intro i s hi
  cases i with
  | synth note mod frames => cases hi
  | init plat api => exact ⟨_, exec_init plat api s, s.sameOutside_refl, exec_init plat api _⟩
  | noteOn np => exact ⟨_, exec_noteOn np s, s.sameOutside_refl, exec_noteOn np _⟩
  | noteOff np => exact ⟨s, exec_noteOff np s, s.sameOutside_refl, exec_noteOff np s⟩
  | setpMode v => exact ⟨_, exec_setpMode v s, s.sameOutside_refl, exec_setpMode_again v s⟩
  | setpDrive v => exact ⟨_, exec_setpDrive v s, s.sameOutside_setDrive _, exec_setpDrive v _⟩
  | setpDetune v => exact ⟨_, exec_setpDetune v s, s.sameOutside_refl, exec_setpDetune v _⟩
  | setpAux v => exact ⟨s, exec_setpAux v s, s.sameOutside_refl, exec_setpAux v s⟩

/-! ## The words an operation emits (R54) -/

theorem wordsOf_of_synth {w : CmdWord} {note mod : BitVec 8} {frames : BitVec 12}
    (hd : decode w = .operation (.synth note mod frames)) : wordsOf w = frames.toNat := by
  unfold wordsOf
  rw [hd]

theorem wordsOf_of_lifecycle {w : CmdWord} {i : Instr} (hd : decode w = .operation i)
    (hi : isSynth i = false) : wordsOf w = 0 := by
  unfold wordsOf
  rw [hd]
  cases i with
  | synth note mod frames => cases hi
  | _ => rfl

theorem wordsOf_of_reserved {w : CmdWord} {r : Reserved} (hd : decode w = .reserved r) :
    wordsOf w = 0 := by
  unfold wordsOf
  rw [hd]

theorem exists_synth_of_isSynth {i : Instr} (h : isSynth i = true) :
    ∃ note mod frames, i = .synth note mod frames := by
  cases i with
  | synth note mod frames => exact ⟨note, mod, frames, rfl⟩
  | _ => cases h

/-- Every operation runs, leaves the words still to be issued, and appends the words its command word stands
for. -/
theorem exec_appends {w : CmdWord} {i : Instr} (hd : decode w = .operation i) (s : State) :
    ∃ t beats, exec i s = .next t ∧ t.cmds = s.cmds ∧ t.smp = s.smp ++ beats ∧
      beats.length = wordsOf w := by
  cases hi : isSynth i with
  | true =>
    obtain ⟨note, mod, frames, rfl⟩ := exists_synth_of_isSynth hi
    obtain ⟨beats, hsmp, hlen⟩ := synth_smp Config.cfg note mod frames s
    obtain ⟨-, -, -, -, -, -, -, hcmds, -⟩ := synth_frame Config.cfg note mod frames s
    exact ⟨_, beats, exec_synth note mod frames s, hcmds, hsmp,
      hlen.trans (wordsOf_of_synth hd).symm⟩
  | false =>
    obtain ⟨t, hx, ⟨-, -, hcmds, hsmp, -⟩, -⟩ := lifecycleIsSilentAndIdempotent i s hi
    exact ⟨t, [], hx, hcmds, by rw [hsmp, List.append_nil], (wordsOf_of_lifecycle hd hi).symm⟩

/-! ## The statements about a step and about reset -/

/-- Settles O10: the word is taken by its transfer, its operation appends the words it stands for, and the
completion sets `cmd_ready`; a reserved word stands for none. -/
theorem stepTakesOneCommand : Obligations.StepTakesOneCommand := by
  unfold Obligations.StepTakesOneCommand
  intro s w rest hw
  cases hd : decode w with
  | operation i =>
    obtain ⟨t, beats, hx, hcmds, hsmp, hlen⟩ :=
      exec_appends hd { s with cmds := rest, cmdReady := false }
    exact ⟨t.complete, beats, step_of_operation hw.transfer hd hx, hcmds, rfl, hsmp, hlen⟩
  | reserved r =>
    exact ⟨_, [], step_of_reserved hw.transfer hd, rfl, rfl, (List.append_nil _).symm,
      (wordsOf_of_reserved hd).symm⟩

/-- Settles O7: `step` on the transferred word, for each of the outcomes of its operation. -/
theorem stepRunsDecodedOperation : Obligations.StepRunsDecodedOperation := by
  unfold Obligations.StepRunsDecodedOperation
  intro s w rest i hw hd
  unfold step
  simp only [hw.transfer, hd]
  cases exec i { s with cmds := rest, cmdReady := false } with
  | next t => rfl
  | fault r => rfl
  | refused r => rfl

/-- The reset state is a state of zeroed registers whose ports are at rest. -/
theorem State.reset_eq_complete_zeroRegisters :
    State.reset = State.reset.zeroRegisters.complete := rfl

/-- Settles O12: zeroed registers meet the invariant of a running operation, and the ports are at rest. -/
theorem resetMeetsInvariant : Obligations.ResetMeetsInvariant := by
  unfold Obligations.ResetMeetsInvariant
  refine ⟨rfl, rfl, ?_⟩
  rw [State.reset_eq_complete_zeroRegisters]
  exact (State.zeroRegisters_invBusy rfl).complete

end Sys2Proof.Machine
end

section
/-! The encoding family (30_encoding.md): one relation says which row of the opcode map, or which reserved
case, a word selects, and `decode` answers exactly that. The round trips, the opcode map, the reserved words
and the assembler are read off it. -/

namespace Sys2Proof.Machine

/-! ## What a word selects (R81 to R83) -/

/-- The opcode map of R81 and the reserved cases of R82 as one relation: what the fields of `w` select. -/
inductive Selects (w : CmdWord) : Decoded → Prop
  | init (ho : opField w = 0#4) : Selects w (.operation (.init (platField w) (apiField w)))
  | synth (ho : opField w = 1#4) :
      Selects w (.operation (.synth (noteField w) (modField w) (framesField w)))
  | noteOn (ho : opField w = 2#4) : Selects w (.operation (.noteOn (npField w)))
  | noteOff (ho : opField w = 3#4) : Selects w (.operation (.noteOff (npField w)))
  | setpMode (hf : opField w = 4#4 ∧ rsvField w = 0#4 ∧ pidField w = 0#8) :
      Selects w (.operation (.setpMode (valueField w)))
  | setpDrive (hf : opField w = 4#4 ∧ rsvField w = 0#4 ∧ pidField w = 1#8) :
      Selects w (.operation (.setpDrive (valueField w)))
  | setpDetune (hf : opField w = 4#4 ∧ rsvField w = 0#4 ∧ pidField w = 2#8) :
      Selects w (.operation (.setpDetune (valueField w)))
  | setpAux (hf : opField w = 4#4 ∧ rsvField w = 0#4 ∧ pidField w = 3#8) :
      Selects w (.operation (.setpAux (valueField w)))
  | reservedOp (ho : 5 ≤ (opField w).toNat) : Selects w (.reserved (.op (opField w)))
  | reservedRsv (ho : opField w = 4#4) (hr : rsvField w ≠ 0#4) :
      Selects w (.reserved (.rsv (rsvField w)))
  | reservedPid (ho : opField w = 4#4) (hr : rsvField w = 0#4) (hp : 4 ≤ (pidField w).toNat) :
      Selects w (.reserved (.pid (pidField w)))

theorem selects_decodeSetp {w : CmdWord} (ho : opField w = 4#4) : Selects w (decodeSetp w) := by
  unfold decodeSetp
  split_ifs with hr h0 h1 h2 h3
  · exact .reservedRsv ho hr
  · exact .setpMode ⟨ho, not_not.mp hr, h0⟩
  · exact .setpDrive ⟨ho, not_not.mp hr, h1⟩
  · exact .setpDetune ⟨ho, not_not.mp hr, h2⟩
  · exact .setpAux ⟨ho, not_not.mp hr, h3⟩
  · exact .reservedPid ho (not_not.mp hr) (by bv_omega)

/-- What the decoder answers is selected by the word. -/
theorem selects_decode (w : CmdWord) : Selects w (decode w) := by
  unfold decode
  split_ifs with h0 h1 h2 h3 h4
  · exact .init h0
  · exact .synth h1
  · exact .noteOn h2
  · exact .noteOff h3
  · exact selects_decodeSetp h4
  · exact .reservedOp (by bv_omega)

/-- A word selects nothing but what the decoder answers. -/
theorem Selects.decode_eq {w : CmdWord} {d : Decoded} (h : Selects w d) : decode w = d := by
  cases h with
  | init ho | synth ho | noteOn ho | noteOff ho => simp [decode, ho]
  | setpMode hf | setpDrive hf | setpDetune hf | setpAux hf =>
    obtain ⟨ho, hr, hp⟩ := hf
    simp [decode, decodeSetp, ho, hr, hp]
  | reservedOp ho =>
    have hne : opField w ≠ 0#4 ∧ opField w ≠ 1#4 ∧ opField w ≠ 2#4 ∧ opField w ≠ 3#4 ∧
        opField w ≠ 4#4 := by bv_omega
    simp [decode, hne]
  | reservedRsv ho hr => simp [decode, decodeSetp, ho, hr]
  | reservedPid ho hr hp =>
    have hne : pidField w ≠ 0#8 ∧ pidField w ≠ 1#8 ∧ pidField w ≠ 2#8 ∧ pidField w ≠ 3#8 := by
      bv_omega
    simp [decode, decodeSetp, ho, hr, hne]

/-! ## The word of an operation (R74 to R77) -/

theorem fields_formatP (o r : BitVec 4) (p : BitVec 8) (v : BitVec 16) :
    opField (o ++ r ++ p ++ v) = o ∧ rsvField (o ++ r ++ p ++ v) = r ∧ pidField (o ++ r ++ p ++ v) = p :=
  ⟨opField_formatP o r p v, rsvField_formatP o r p v, pidField_formatP o r p v⟩

/-- The word of an operation selects it: each field is read where the encoder put it. -/
theorem selects_encode (i : Instr) : Selects (encode i) (.operation i) := by
  cases i with
  | init plat api =>
    have h := Selects.init (opField_formatZ 0#4 plat api)
    rwa [platField_formatZ, apiField_formatZ] at h
  | synth note mod frames =>
    have h := Selects.synth (opField_formatS 1#4 frames note mod)
    rwa [noteField_formatS, modField_formatS, framesField_formatS] at h
  | noteOn np =>
    have h := Selects.noteOn (opField_formatN 2#4 np)
    rwa [npField_formatN] at h
  | noteOff np =>
    have h := Selects.noteOff (opField_formatN 3#4 np)
    rwa [npField_formatN] at h
  | setpMode v =>
    have h := Selects.setpMode (fields_formatP 4#4 0#4 0#8 v)
    rwa [valueField_formatP] at h
  | setpDrive v =>
    have h := Selects.setpDrive (fields_formatP 4#4 0#4 1#8 v)
    rwa [valueField_formatP] at h
  | setpDetune v =>
    have h := Selects.setpDetune (fields_formatP 4#4 0#4 2#8 v)
    rwa [valueField_formatP] at h
  | setpAux v =>
    have h := Selects.setpAux (fields_formatP 4#4 0#4 3#8 v)
    rwa [valueField_formatP] at h

/-- An operation a word selects has that word: the fields of each format fill all 32 bits. -/
theorem Selects.encode_eq {w : CmdWord} {i : Instr} (h : Selects w (.operation i)) :
    encode i = w := by
  cases h with
  | init ho => simpa only [encode, ho] using join_formatZ w
  | synth ho => simpa only [encode, ho] using join_formatS w
  | noteOn ho | noteOff ho => simpa only [encode, ho] using join_formatN w
  | setpMode hf | setpDrive hf | setpDetune hf | setpAux hf =>
    obtain ⟨ho, hr, hp⟩ := hf
    simpa only [encode, ho, hr, hp] using join_formatP w

/-- Settles O1: the word of an operation selects it, and the decoder answers what the word selects. -/
theorem decodeInvertsEncode : Obligations.DecodeInvertsEncode := by
  unfold Obligations.DecodeInvertsEncode
  exact fun i => (selects_encode i).decode_eq

/-- Settles O2: the decoder's answer is selected by the word, which is then the word of that operation. -/
theorem encodeInvertsDecode : Obligations.EncodeInvertsDecode := by
  unfold Obligations.EncodeInvertsDecode
  intro w i hd
  exact (hd ▸ selects_decode w).encode_eq

/-! ## The opcode map (R81) -/

/-- A selected operation has a row whose mask and match the word meets. -/
theorem Selects.exists_row {w : CmdWord} {i : Instr} (h : Selects w (.operation i)) :
    ∃ r ∈ opcodeRows, w &&& r.1 = r.2 := by
  cases h with
  | init ho => exact ⟨(0xF0000000#32, 0x00000000#32), by decide, (mask_op w 0#4).mpr ho⟩
  | synth ho => exact ⟨(0xF0000000#32, 0x10000000#32), by decide, (mask_op w 1#4).mpr ho⟩
  | noteOn ho => exact ⟨(0xF0000000#32, 0x20000000#32), by decide, (mask_op w 2#4).mpr ho⟩
  | noteOff ho => exact ⟨(0xF0000000#32, 0x30000000#32), by decide, (mask_op w 3#4).mpr ho⟩
  | setpMode hf =>
    exact ⟨(0xFFFF0000#32, 0x40000000#32), by decide, (mask_setp w 4#4 0#4 0#8).mpr hf⟩
  | setpDrive hf =>
    exact ⟨(0xFFFF0000#32, 0x40010000#32), by decide, (mask_setp w 4#4 0#4 1#8).mpr hf⟩
  | setpDetune hf =>
    exact ⟨(0xFFFF0000#32, 0x40020000#32), by decide, (mask_setp w 4#4 0#4 2#8).mpr hf⟩
  | setpAux hf =>
    exact ⟨(0xFFFF0000#32, 0x40030000#32), by decide, (mask_setp w 4#4 0#4 3#8).mpr hf⟩

/-- No two rows agree on the bits that both masks read. -/
theorem opcodeRows_pairwise_incompatible :
    opcodeRows.Pairwise (fun a b => a.2 &&& b.1 ≠ b.2 &&& a.1) := by
  decide

/-- One word meets no two rows: the bits both masks read would agree. -/
theorem opcodeRows_disjoint (w : CmdWord) :
    opcodeRows.Pairwise (fun a b => ¬ (w &&& a.1 = a.2 ∧ w &&& b.1 = b.2)) := by
  refine opcodeRows_pairwise_incompatible.imp ?_
  rintro a b hne ⟨ha, hb⟩
  exact hne (by rw [← ha, ← hb, BitVec.and_assoc, BitVec.and_assoc, BitVec.and_comm a.1])

/-- Settles O3: a row's mask reads the fields that select its operation, and the word of an operation
meets a row. -/
theorem opcodeMapSelectsOperation : Obligations.OpcodeMapSelectsOperation := by
  unfold Obligations.OpcodeMapSelectsOperation
  intro w
  refine ⟨fun h => (Selects.init ((mask_op w 0#4).mp h)).decode_eq,
    fun h => (Selects.synth ((mask_op w 1#4).mp h)).decode_eq,
    fun h => (Selects.noteOn ((mask_op w 2#4).mp h)).decode_eq,
    fun h => (Selects.noteOff ((mask_op w 3#4).mp h)).decode_eq,
    fun h => (Selects.setpMode ((mask_setp w 4#4 0#4 0#8).mp h)).decode_eq,
    fun h => (Selects.setpDrive ((mask_setp w 4#4 0#4 1#8).mp h)).decode_eq,
    fun h => (Selects.setpDetune ((mask_setp w 4#4 0#4 2#8).mp h)).decode_eq,
    fun h => (Selects.setpAux ((mask_setp w 4#4 0#4 3#8).mp h)).decode_eq,
    fun hrows => ?_, opcodeRows_disjoint w⟩
  cases hd : decode w with
  | reserved why => exact ⟨why, rfl⟩
  | operation i =>
    obtain ⟨r, hr, hmatch⟩ := (hd ▸ selects_decode w : Selects w (.operation i)).exists_row
    exact absurd hmatch (hrows r hr)

/-! ## Reserved words (R82) -/

/-- A word is reserved exactly in the three cases of R82. -/
theorem decode_reserved_iff (w : CmdWord) :
    (∃ why, decode w = .reserved why) ↔
      5 ≤ (opField w).toNat ∨ ((opField w).toNat = 4 ∧ rsvField w ≠ 0#4) ∨
      ((opField w).toNat = 4 ∧ rsvField w = 0#4 ∧ 4 ≤ (pidField w).toNat) := by
  have hop : (opField w).toNat = 4 ↔ opField w = 4#4 := by bv_omega
  rw [hop]
  constructor
  · rintro ⟨why, hd⟩
    have h := selects_decode w
    rw [hd] at h
    cases h with
    | reservedOp ho => exact .inl ho
    | reservedRsv ho hr => exact .inr (.inl ⟨ho, hr⟩)
    | reservedPid ho hr hp => exact .inr (.inr ⟨ho, hr, hp⟩)
  · rintro (ho | ⟨ho, hr⟩ | ⟨ho, hr, hp⟩)
    · exact ⟨_, (Selects.reservedOp ho).decode_eq⟩
    · exact ⟨_, (Selects.reservedRsv ho hr).decode_eq⟩
    · exact ⟨_, (Selects.reservedPid ho hr hp).decode_eq⟩

/-- Settles O4: the cases are those of the decoder, and the step on a reserved word is its transfer and its
completion. -/
theorem reservedWordsAreIgnored : Obligations.ReservedWordsAreIgnored := by
  unfold Obligations.ReservedWordsAreIgnored
  refine fun w => ⟨decode_reserved_iff w, fun s rest hw ⟨why, hd⟩ => ?_⟩
  rw [step_of_reserved hw.transfer hd]
  obtain ⟨hready, -⟩ := hw
  simp [State.complete, ← hready]

/-! ## The assembler (R84, R85) -/

theorem Asm.assemble_of_not_wellFormed {a : Asm} (h : ¬ a.wellFormed = true) :
    a.assemble = none := if_neg h

theorem Asm.assemble_of_wellFormed {a : Asm} (h : a.wellFormed = true) :
    a.assemble = some a.word32 := if_pos h

/-- A line in range that stands for an operation assembles to a word that decodes to it. -/
theorem Asm.assemble_decode {a : Asm} {i : Instr} (h : a.wellFormed = true)
    (hi : a.word32 = encode i) : ∃ w, a.assemble = some w ∧ decode w = .operation i :=
  ⟨encode i, hi ▸ assemble_of_wellFormed h, decodeInvertsEncode i⟩

/-- A field holds an operand that fits it. -/
theorem toNat_operand {n v : Nat} (h : v < 2 ^ n) : (BitVec.ofNat n v).toNat = v :=
  (BitVec.toNat_ofNat v n).trans (Nat.mod_eq_of_lt h)

/-- A line with one operand, in range up to `bound`, keeps it there and has no word above. -/
theorem Asm.assemble_operand {n bound : Nat} {line : Nat → Asm} {op : BitVec n → Instr}
    (hbound : bound < 2 ^ n) (hrange : ∀ v, (line v).wellFormed = decide (v ≤ bound))
    (hword : ∀ v, (line v).word32 = encode (op (BitVec.ofNat n v))) :
    (∀ v, bound < v → (line v).assemble = none) ∧
    ∀ v ≤ bound, ∃ w u, (line v).assemble = some w ∧ decode w = .operation (op u) ∧ u.toNat = v := by
  constructor
  · intro v hv
    exact assemble_of_not_wellFormed (by simpa [hrange] using hv)
  · intro v hv
    obtain ⟨w, ha, hd⟩ := assemble_decode (by simpa [hrange] using hv) (hword v)
    exact ⟨w, _, ha, hd, toNat_operand (hv.trans_lt hbound)⟩

theorem Asm.wellFormed_init_iff {plat api : Nat} :
    (Asm.init plat api).wellFormed = true ↔ plat ≤ 4095 ∧ api ≤ 65535 := by
  simp [Asm.wellFormed]

theorem Asm.wellFormed_synth_iff {note mod frames : Nat} :
    (Asm.synth note mod frames).wellFormed = true ↔ note ≤ 255 ∧ mod ≤ 255 ∧ frames ≤ 4095 := by
  simp [Asm.wellFormed, and_assoc]

theorem Asm.wellFormed_synthp_iff {pitch frames : Nat} :
    (Asm.synthp pitch frames).wellFormed = true ↔ pitch ≤ 65535 ∧ frames ≤ 4095 := by
  simp [Asm.wellFormed]

theorem Asm.wellFormed_word_iff {v : Nat} : (Asm.word v).wellFormed = true ↔ v ≤ 0xFFFFFFFF := by
  simp [Asm.wellFormed]

/-- `INIT` in range carries its operands. -/
theorem Asm.assemble_init {plat api : Nat} (hp : plat ≤ 4095) (ha : api ≤ 65535) :
    ∃ w p q, (Asm.init plat api).assemble = some w ∧ decode w = .operation (.init p q) ∧
      p.toNat = plat ∧ q.toNat = api := by
  obtain ⟨w, hw, hd⟩ := assemble_decode (i := .init _ _) (wellFormed_init_iff.mpr ⟨hp, ha⟩) rfl
  exact ⟨w, _, _, hw, hd, toNat_operand (by omega), toNat_operand (by omega)⟩

/-- `SYNTH` in range carries its operands. -/
theorem Asm.assemble_synth {note mod frames : Nat} (hn : note ≤ 255) (hm : mod ≤ 255)
    (hf : frames ≤ 4095) :
    ∃ w n m f, (Asm.synth note mod frames).assemble = some w ∧
      decode w = .operation (.synth n m f) ∧ n.toNat = note ∧ m.toNat = mod ∧ f.toNat = frames := by
  obtain ⟨w, hw, hd⟩ := assemble_decode (i := .synth _ _ _) (wellFormed_synth_iff.mpr ⟨hn, hm, hf⟩) rfl
  exact ⟨w, _, _, _, hw, hd, toNat_operand (by omega), toNat_operand (by omega),
    toNat_operand (by omega)⟩

/-- `SYNTHP` is the `SYNTH` of R85, in range and out of it: the bytes of a pitch word are in range exactly
where the pitch word is. -/
theorem Asm.assemble_synthp (pitch frames : Nat) :
    (Asm.synthp pitch frames).assemble =
      (Asm.synth (pitch / 256) (pitch % 256) frames).assemble := by
  have hrange : (Asm.synthp pitch frames).wellFormed =
      (Asm.synth (pitch / 256) (pitch % 256) frames).wellFormed := by
    rw [Bool.eq_iff_iff, wellFormed_synthp_iff, wellFormed_synth_iff]
    omega
  unfold Asm.assemble
  rw [hrange]
  rfl

/-- The number of a mode names it (R80). -/
theorem modeOfValue_number (m : Mode) : modeOfValue (BitVec.ofNat 16 m.number) = some m := by
  cases m <;> rfl

/-- Settles O6: out of range a line is not well formed, in range its word is the encoding of its operands,
which decodes back and whose fields hold them. -/
theorem assemblerKeepsOperands : Obligations.AssemblerKeepsOperands := by
  unfold Obligations.AssemblerKeepsOperands
  obtain ⟨noteOn_out, noteOn_in⟩ := Asm.assemble_operand (line := .noteOn) (op := .noteOn)
    (by decide) (fun _ => rfl) (fun _ => rfl)
  obtain ⟨noteOff_out, noteOff_in⟩ := Asm.assemble_operand (line := .noteOff) (op := .noteOff)
    (by decide) (fun _ => rfl) (fun _ => rfl)
  obtain ⟨mode_out, mode_in⟩ := Asm.assemble_operand (line := .setpMode) (op := .setpMode)
    (by decide) (fun _ => rfl) (fun _ => rfl)
  obtain ⟨drive_out, drive_in⟩ := Asm.assemble_operand (line := .setpDrive) (op := .setpDrive)
    (by decide) (fun _ => rfl) (fun _ => rfl)
  obtain ⟨detune_out, detune_in⟩ := Asm.assemble_operand (line := .setpDetune) (op := .setpDetune)
    (by decide) (fun _ => rfl) (fun _ => rfl)
  obtain ⟨aux_out, aux_in⟩ := Asm.assemble_operand (line := .setpAux) (op := .setpAux)
    (by decide) (fun _ => rfl) (fun _ => rfl)
  refine ⟨fun plat api h => ?init_out, fun note mod frames h => ?synth_out,
    fun pitch frames h => ?synthp_out, fun np h => ⟨noteOn_out np h, noteOff_out np h⟩,
    fun v h => ⟨mode_out v h, drive_out v h, detune_out v h, aux_out v h⟩,
    fun v h => ?word_out, fun plat api => Asm.assemble_init,
    fun note mod frames => Asm.assemble_synth, fun pitch frames hp hf => ?synthp_in,
    noteOn_in, noteOff_in, mode_in, fun m => ?mode_name, drive_in, detune_in, aux_in,
    fun v h => ?word_in, rfl, Asm.assemble_decode rfl rfl⟩
  case init_out =>
    exact Asm.assemble_of_not_wellFormed (by rw [Asm.wellFormed_init_iff]; omega)
  case synth_out =>
    exact Asm.assemble_of_not_wellFormed (by rw [Asm.wellFormed_synth_iff]; omega)
  case synthp_out =>
    exact Asm.assemble_of_not_wellFormed (by rw [Asm.wellFormed_synthp_iff]; omega)
  case word_out =>
    exact Asm.assemble_of_not_wellFormed (by rw [Asm.wellFormed_word_iff]; omega)
  case synthp_in =>
    rw [Asm.assemble_synthp]
    exact Asm.assemble_synth (by omega) (by omega) hf
  case mode_name =>
    obtain ⟨w, hw, hd⟩ := Asm.assemble_decode (a := .setpModeName m) (i := .setpMode _) rfl rfl
    exact ⟨w, _, hw, hd, modeOfValue_number m⟩
  case word_in =>
    exact ⟨_, Asm.assemble_of_wellFormed (Asm.wellFormed_word_iff.mpr h), toNat_operand (by omega)⟩

/-- Settles O5: the lines and words are concrete, so each is evaluated. -/
theorem workedEncodings : Obligations.WorkedEncodings := by
  unfold Obligations.WorkedEncodings
  decide

end Sys2Proof.Machine
end

section
/-! The `SYNTH` family (40_synth.md): the words of the frame loop in closed form, and independence of the ports
and of the words emitted before. -/

namespace Sys2Proof.Machine

/-! ## The words of the frame loop (R104) -/

@[simp] theorem frame_mode (c : Cfg) (last : Bool) (s : State) : (frame c last s).mode = s.mode := by
  obtain ⟨h, -⟩ := advanceAll_frame s
  rw [frame_eq, State.emit_mode, h]

@[simp] theorem frame_driveAmount (c : Cfg) (last : Bool) (s : State) :
    (frame c last s).driveAmount = s.driveAmount := by
  obtain ⟨-, h, -⟩ := advanceAll_frame s
  rw [frame_eq, State.emit_driveAmount, h]

/-- What a mixer reads of an active slot `k` frames after one frame has run. -/
theorem frame_voice_active (c : Cfg) (last : Bool) {s : State} {i : Fin 4} (h : i ∈ s.activeSlots)
    (k : Nat) :
    phaseAfter ((frame c last s).voice i) k = phaseAfter (s.voice i) (k + 1) ∧
    ((frame c last s).voice i).wti = (s.voice i).wti := by
  rw [frame_voice, if_pos ((s.mem_activeSlots i).mp h)]
  exact ⟨phaseAfter_advanced _ _, rfl⟩

/-- Frame `k` counted after one frame is frame `k + 1`. -/
theorem mixAt_frame (c : Cfg) (last : Bool) (s : State) (k : Nat) :
    mixAt c (frame c last s) k = mixAt c s (k + 1) := by
  unfold mixAt
  rw [frame_mode, State.activeSlots_congr (frame_voiceCount c last s)]
  cases combination s.mode with
  | additive =>
    refine List.foldl_ext _ _ _ fun sig i hi => ?_
    obtain ⟨hphase, hwti⟩ := frame_voice_active c last hi k
    rw [hphase, hwti]
  | ring =>
    refine List.foldl_ext _ _ _ fun sig i hi => ?_
    obtain ⟨hphase, hwti⟩ := frame_voice_active c last hi k
    rw [hphase, hwti]

/-- The transfers of `n` frames from state `s`: word `k` is that of the mix of frame `k`, and the last one
carries `smp_last` (20_memory.md R53). -/
def frameBeats (c : Cfg) (s : State) (n : Nat) : List Beat :=
  (List.range n).map fun k =>
    { data := c.toFixed (drive c s.driveAmount (mixAt c s k)), last := decide (k + 1 = n) }

/-- The first transfer is that of the frame that runs, the others are those of the state it leaves. -/
theorem frameBeats_succ (c : Cfg) (last : Bool) (s : State) (n : Nat) :
    frameBeats c s (n + 1) =
      { data := c.toFixed (drive c s.driveAmount (mixAt c s 0)), last := n == 0 } ::
        frameBeats c (frame c last s) n := by
  simp [frameBeats, List.range_succ_eq_map, mixAt_frame, Function.comp_def, Bool.beq_eq_decide_eq,
    eq_comm]

/-- `n` frames append exactly their transfers to the stream. -/
theorem frameLoop_smp_eq (c : Cfg) (n : Nat) (s : State) :
    (frameLoop c n s).smp = s.smp ++ frameBeats c s n := by
  induction n generalizing s with
  | zero => exact (List.append_nil _).symm
  | succ n ih =>
    rw [frameLoop, ih, frame_smp, frameBeats_succ c (n == 0), List.append_assoc,
      List.singleton_append]

/-- A `SYNTH` appends the transfers counted from the state its control update leaves. -/
theorem synth_smp_eq (c : Cfg) (note mod : BitVec 8) (frames : BitVec 12) (s : State) :
    (synth c note mod frames s).smp =
      s.smp ++ frameBeats c (controlUpdate c note mod s) frames.toNat := by
  obtain ⟨-, -, -, -, -, hsmp⟩ := controlUpdate_frame c note mod s
  exact (frameLoop_smp_eq c frames.toNat _).trans (by rw [hsmp])

/-- Only the control update takes draws. -/
theorem synth_draws (c : Cfg) (note mod : BitVec 8) (frames : BitVec 12) (s : State) :
    (synth c note mod frames s).draws = (controlUpdate c note mod s).draws := by
  obtain ⟨-, -, -, -, -, -, -, -, h⟩ := frameLoop_frame c frames.toNat (controlUpdate c note mod s)
  exact h

/-- The drive stage written out (44_drive_output.md R170). -/
theorem drive_formula (c : Cfg) (d x : Num32) :
    drive c d x =
      F32.add
        (F32.mul (F32.div d (F32.sub 0x3F800000#32 (F32.div d 0x40400000#32)))
          (c.softClip (F32.div d 0x40400000#32) x))
        (F32.mul (F32.sub 0x3F800000#32 d) x) := rfl

/-- Settles O33: the transfers by induction on the frames, the slots and the other fields by what the control
update and the frame loop leave. -/
theorem synthClosedForm : Obligations.SynthClosedForm := by
  unfold Obligations.SynthClosedForm
  intro s note mod frames
  obtain ⟨hmode, hdrive, hdetune, hcount, hslot, hlast, hready, hcmds, hvalid⟩ :=
    synth_frame Config.cfg note mod frames s
  obtain ⟨ucount, uslot, ulast, -⟩ := controlUpdate_alloc Config.cfg note mod s
  obtain ⟨-, udrive, -⟩ := controlUpdate_frame Config.cfg note mod s
  have hsmp := synth_smp_eq Config.cfg note mod frames s
  simp only [frameBeats, drive_formula, udrive] at hsmp
  exact ⟨_, exec_synth note mod frames s, hsmp, synth_voice Config.cfg note mod frames s,
    hcount.trans ucount.symm, hslot.trans uslot.symm, hlast.trans ulast.symm,
    synth_draws Config.cfg note mod frames s, hmode, hdrive, hdetune, hcmds, hready, hvalid⟩

/-! ## What a `SYNTH` leaves, and a `SYNTH` of no frames (R105) -/

/-- Outside the Poly family the stage rebuilds all slots, which leaves `lastNoteSeen` (10_state.md R27). -/
theorem alloc_lastNoteSeen (c : Cfg) (base : BitVec 8) {s : State} (hpoly : s.mode ≠ .poly)
    (hring : s.mode ≠ .polyRing) : (alloc c base s).lastNoteSeen = s.lastNoteSeen := by
  have hfull : s.mode = .unison ∨ s.mode = .octave ∨ s.mode = .fifth ∨ s.mode = .unisonRing := by
    cases hm : s.mode with
    | poly => exact absurd hm hpoly
    | polyRing => exact absurd hm hring
    | _ => decide
  obtain ⟨n0, n1, h⟩ := alloc_of_fullReset c base hfull
  rw [h]
  rfl

/-- Settles O23: the control update and the frame loop leave these fields, and a slot that is not active keeps
the phase and the increment the allocator left it with. -/
theorem synthFrame : Obligations.SynthFrame := by
  unfold Obligations.SynthFrame
  intro s note mod frames
  obtain ⟨hmode, hdrive, hdetune, hcount, -, hlast, hready, hcmds, hvalid⟩ :=
    synth_frame Config.cfg note mod frames s
  refine ⟨_, exec_synth note mod frames s, hmode, hdrive, hdetune, hcmds, hready, hvalid,
    fun hpoly hring => hlast.trans (alloc_lastNoteSeen Config.cfg note hpoly hring), fun i hi => ?_⟩
  rw [hcount] at hi
  rw [synth_voice_inactive _ _ _ _ _ hi]
  exact alloc_phase_inc Config.cfg note s i

/-- With no frames the loop runs zero times. -/
theorem synth_noFrames (c : Cfg) (note mod : BitVec 8) (s : State) :
    synth c note mod 0#12 s = (controlUpdate c note mod s).endStream := rfl

/-- Settles O25: the operation is its control update, which emits nothing and moves no phase. -/
theorem synthOfNoFrames : Obligations.SynthOfNoFrames := by
  unfold Obligations.SynthOfNoFrames
  intro s note mod
  obtain ⟨-, -, -, -, -, hsmp⟩ := controlUpdate_frame Config.cfg note mod s
  refine ⟨_, exec_synth note mod 0#12 s, ?_⟩
  rw [synth_noFrames]
  exact ⟨hsmp, controlUpdate_phase Config.cfg note mod s, ⟨rfl, rfl, rfl, rfl, rfl, rfl, rfl⟩, rfl⟩

/-! ## Independence of the ports and of earlier output (20_memory.md R58) -/

/-- The registers and the draws of `s` with the ports, the words still to be issued and the words emitted of
`o`. -/
def State.withOutsideOf (s o : State) : State :=
  { s with cmdReady := o.cmdReady, smpValid := o.smpValid, cmds := o.cmds, smp := o.smp }

/-- A state that agrees with `s` on the registers and the draws is `s` with an outside of its own. -/
theorem State.eq_withOutsideOf {s o : State} (hregs : s.sameRegisters o) (hdraws : s.draws = o.draws) :
    o = s.withOutsideOf o := by
  obtain ⟨hmode, hdrive, hdetune, hcount, hslot, hlast, hvoices⟩ := hregs
  simp [State.withOutsideOf, hmode, hdrive, hdetune, hcount, hslot, hlast, hvoices, hdraws]

theorem allocPoly_withOutsideOf (c : Cfg) (base : BitVec 8) (s o : State) :
    allocPoly c base (s.withOutsideOf o) = (allocPoly c base s).withOutsideOf o := by
  unfold allocPoly
  rw [show isNewNote base (s.withOutsideOf o) = isNewNote base s from rfl]
  cases isNewNote base s with
  | true => rfl
  | false => rfl

/-- The allocator neither reads nor writes the outside. -/
theorem alloc_withOutsideOf (c : Cfg) (base : BitVec 8) (s o : State) :
    alloc c base (s.withOutsideOf o) = (alloc c base s).withOutsideOf o := by
  unfold alloc
  rw [show (s.withOutsideOf o).mode = s.mode from rfl]
  cases allocPolicy s.mode with
  | poly => exact allocPoly_withOutsideOf c base s o
  | pair off => rfl
  | unison => rfl

/-- The resolver neither reads nor writes the outside: no trip of its loop does. -/
theorem resolve_withOutsideOf (c : Cfg) (mod : BitVec 8) (s o : State) :
    resolve c mod (s.withOutsideOf o) = (resolve c mod s).withOutsideOf o :=
  List.foldl_hom (f := fun t : State => t.withOutsideOf o) (g₁ := resolveVoice c mod)
    (g₂ := resolveVoice c mod) fun _ _ => rfl

theorem controlUpdate_withOutsideOf (c : Cfg) (note mod : BitVec 8) (s o : State) :
    controlUpdate c note mod (s.withOutsideOf o) = (controlUpdate c note mod s).withOutsideOf o := by
  unfold controlUpdate
  rw [alloc_withOutsideOf, resolve_withOutsideOf]

/-- The words depend on the registers alone. -/
theorem frameBeats_withOutsideOf (c : Cfg) (s o : State) (n : Nat) :
    frameBeats c (s.withOutsideOf o) n = frameBeats c s n := rfl

/-- A `SYNTH` leaves the same slots whatever the outside. -/
theorem synth_voice_withOutsideOf (c : Cfg) (note mod : BitVec 8) (frames : BitVec 12) (s o : State)
    (i : Fin 4) :
    (synth c note mod frames (s.withOutsideOf o)).voice i = (synth c note mod frames s).voice i := by
  rw [synth_voice, synth_voice, controlUpdate_withOutsideOf]
  rfl

/-- A `SYNTH` leaves the same registers whatever the outside. -/
theorem synth_sameRegisters_withOutsideOf (c : Cfg) (note mod : BitVec 8) (frames : BitVec 12)
    (s o : State) :
    (synth c note mod frames s).sameRegisters (synth c note mod frames (s.withOutsideOf o)) := by
  obtain ⟨a1, a2, a3, a4, a5, a6, -⟩ := synth_frame c note mod frames s
  obtain ⟨b1, b2, b3, b4, b5, b6, -⟩ := synth_frame c note mod frames (s.withOutsideOf o)
  rw [alloc_withOutsideOf] at b4 b5 b6
  exact ⟨a1.trans b1.symm, a2.trans b2.symm, a3.trans b3.symm, a4.trans b4.symm, a5.trans b5.symm,
    a6.trans b6.symm,
    VoiceFile.ext_get fun i => (synth_voice_withOutsideOf c note mod frames s o i).symm⟩

/-- Settles O34: the second state is the first with an outside of its own, which the control update carries
through and no word depends on. -/
theorem synthIgnoresEarlierOutput : Obligations.SynthIgnoresEarlierOutput := by
  unfold Obligations.SynthIgnoresEarlierOutput
  intro s s' note mod frames hregs hdraws
  have hs' := State.eq_withOutsideOf hregs hdraws
  have hupdate : controlUpdate Config.cfg note mod s' =
      (controlUpdate Config.cfg note mod s).withOutsideOf s' := by
    rw [← controlUpdate_withOutsideOf, ← hs']
  refine ⟨_, _, frameBeats Config.cfg (controlUpdate Config.cfg note mod s) frames.toNat,
    exec_synth note mod frames s, exec_synth note mod frames s', ?_, ?_,
    synth_smp_eq Config.cfg note mod frames s, ?_⟩
  · rw [hs']
    exact synth_sameRegisters_withOutsideOf Config.cfg note mod frames s s'
  · rw [synth_draws, synth_draws, hupdate]
    rfl
  · rw [synth_smp_eq, hupdate, frameBeats_withOutsideOf]

end Sys2Proof.Machine
end

section
/-! The allocator family (41_allocator.md): what each policy leaves in the slots, the count, the cursor and the
last note, as a whole `SYNTH` shows it. The resolver and the frame loop after the stage touch none of these. -/

namespace Sys2Proof.Machine

/-! ## The policy a mode selects (10_state.md R22) -/

theorem allocPolicy_polyFamily {m : Mode} (h : m = .poly ∨ m = .polyRing) : allocPolicy m = .poly := by
  rcases h with rfl | rfl <;> rfl

theorem allocPolicy_pairFamily {m : Mode} (h : m = .octave ∨ m = .fifth) :
    allocPolicy m = .pair (if m = .octave then 12#9 else 7#9) := by
  rcases h with rfl | rfl <;> rfl

theorem allocPolicy_unisonFamily {m : Mode} (h : m = .unison ∨ m = .unisonRing) :
    allocPolicy m = .unison := by
  rcases h with rfl | rfl <;> rfl

theorem waveKind_pairFamily {m : Mode} (h : m = .octave ∨ m = .fifth) : waveKind m = .saw := by
  rcases h with rfl | rfl <;> rfl

/-- The machine's table index in the Poly family: sawtooth in Poly, square in PolyRing. -/
theorem tableIndex_polyFamily {m : Mode} (h : m = .poly ∨ m = .polyRing) (n : BitVec 9) :
    tableIndex Config.cfg (waveKind m) n = if m = .poly then Config.sawIdx n else Config.sqrIdx n := by
  rcases h with rfl | rfl <;> rfl

/-- The machine's table index in the Unison family: sawtooth in Unison, square in UnisonRing. -/
theorem tableIndex_unisonFamily {m : Mode} (h : m = .unison ∨ m = .unisonRing) (n : BitVec 9) :
    tableIndex Config.cfg (waveKind m) n =
      if m = .unison then Config.sawIdx n else Config.sqrIdx n := by
  rcases h with rfl | rfl <;> rfl

/-! ## `ALLOC.POLY` (R112) -/

theorem isNewNote_iff (base : BitVec 8) (s : State) :
    isNewNote base s = true ↔ s.voiceCount = 0#3 ∨ base ≠ s.lastNoteSeen := by
  simp [isNewNote]

theorem alloc_of_newNote (c : Cfg) (base : BitVec 8) {s : State} (hpolicy : allocPolicy s.mode = .poly)
    (hnew : s.voiceCount = 0#3 ∨ base ≠ s.lastNoteSeen) :
    alloc c base s =
      { setVoice c s.nextSlot.toFin (baseNote9 base) s with
        nextSlot := s.nextSlot + 1#2
        voiceCount := bumpCount s.voiceCount
        lastNoteSeen := base } := by
  simp only [alloc, hpolicy, allocPoly, (isNewNote_iff base s).mpr hnew, if_true]

/-- On the note seen last, with a voice allocated, the stage changes nothing. -/
theorem alloc_of_seenNote (c : Cfg) (base : BitVec 8) {s : State} (hpolicy : allocPolicy s.mode = .poly)
    (hseen : ¬ (s.voiceCount = 0#3 ∨ base ≠ s.lastNoteSeen)) : alloc c base s = s := by
  rw [← isNewNote_iff] at hseen
  simp only [alloc, hpolicy, allocPoly, if_neg hseen]

/-- A `SYNTH` that allocates: slot `nextSlot` gets the note and its table index, the others keep theirs; the
cursor and the count advance, and the note is remembered. -/
theorem synth_of_newNote (c : Cfg) (note mod : BitVec 8) (frames : BitVec 12) {s : State}
    (hpolicy : allocPolicy s.mode = .poly) (hnew : s.voiceCount = 0#3 ∨ note ≠ s.lastNoteSeen) :
    ((synth c note mod frames s).voice s.nextSlot.toFin).note = baseNote9 note ∧
    ((synth c note mod frames s).voice s.nextSlot.toFin).wti =
      tableIndex c (waveKind s.mode) (baseNote9 note) ∧
    (∀ j : Fin 4, j ≠ s.nextSlot.toFin →
      ((synth c note mod frames s).voice j).note = (s.voice j).note ∧
      ((synth c note mod frames s).voice j).wti = (s.voice j).wti) ∧
    (synth c note mod frames s).nextSlot = s.nextSlot + 1#2 ∧
    (synth c note mod frames s).voiceCount = bumpCount s.voiceCount ∧
    (synth c note mod frames s).lastNoteSeen = note := by
  have halloc := alloc_of_newNote c note hpolicy hnew
  obtain ⟨-, -, -, hcount, hslot, hlast, -⟩ := synth_frame c note mod frames s
  have hvoice := synth_note_wti c note mod frames s
  simp only [alloc_voice_newNote halloc, setVoice_voice] at hvoice
  rw [halloc] at hcount hslot hlast
  obtain ⟨hnote, hwti⟩ := hvoice s.nextSlot.toFin
  rw [if_pos rfl] at hnote hwti
  refine ⟨hnote, hwti, fun j hj => ?_, hslot, hcount, hlast⟩
  simpa only [if_neg hj] using hvoice j

/-- Settles O26: the stage allocates or leaves its fields, and nothing after it in the `SYNTH` writes them. -/
theorem polyAllocation : Obligations.PolyAllocation := by
  unfold Obligations.PolyAllocation
  intro s note mod frames hmode
  have hpolicy := allocPolicy_polyFamily hmode
  refine ⟨_, exec_synth note mod frames s, ?_⟩
  split
  · next hnew =>
    obtain ⟨hnote, hwti, hothers, hslot, hcount, hlast⟩ :=
      synth_of_newNote Config.cfg note mod frames hpolicy hnew
    refine ⟨hnote, hwti.trans (tableIndex_polyFamily hmode _), hothers, ?_, ?_, hlast⟩
    · rw [hslot, BitVec.toNat_add]
      rfl
    · rw [hcount, bumpCount_toNat]
  · next hseen =>
    obtain ⟨-, -, -, hcount, hslot, hlast, -⟩ := synth_frame Config.cfg note mod frames s
    have hvoice := synth_note_wti Config.cfg note mod frames s
    rw [alloc_of_seenNote Config.cfg note hpolicy hseen] at hcount hslot hlast hvoice
    exact ⟨hvoice, hslot, hcount, hlast⟩

/-- Settles O30: `NOTEON` leaves no voice and the cursor at 0, so the note is new whatever was seen last. -/
theorem noteOnForcesAllocation : Obligations.NoteOnForcesAllocation := by
  unfold Obligations.NoteOnForcesAllocation
  intro s np note mod frames hmode
  refine ⟨_, _, exec_noteOn np s, exec_synth note mod frames _, ?_⟩
  obtain ⟨hnote, hwti, -, hslot, hcount, hlast⟩ :=
    synth_of_newNote Config.cfg note mod frames (s := { s with voiceCount := 0#3, nextSlot := 0#2 })
      (allocPolicy_polyFamily hmode) (.inl rfl)
  obtain ⟨hkeep, -⟩ :=
    synth_frame Config.cfg note mod frames { s with voiceCount := 0#3, nextSlot := 0#2 }
  refine ⟨hcount, hslot, hlast, hnote, ?_⟩
  unfold State.indexFresh
  rw [hkeep]
  exact hwti.trans (congrArg _ hnote.symm)

/-! ## The full-reset policies (R114, R116) -/

/-- A `SYNTH` that rebuilds all slots: notes, table indices, count and cursor. -/
theorem synth_of_fullReset {c : Cfg} {note : BitVec 8} (mod : BitVec 8) (frames : BitVec 12) {s : State}
    {n0 n1 : BitVec 9} (h : alloc c note s = allocFull c n0 n1 s) :
    (∀ i : Fin 4, ((synth c note mod frames s).voice i).note = (if i.val % 2 = 0 then n0 else n1) ∧
      ((synth c note mod frames s).voice i).wti =
        tableIndex c (waveKind s.mode) ((synth c note mod frames s).voice i).note) ∧
    (synth c note mod frames s).voiceCount = 4#3 ∧ (synth c note mod frames s).nextSlot = 0#2 ∧
    (synth c note mod frames s).lastNoteSeen = s.lastNoteSeen := by
  obtain ⟨-, -, -, hcount, hslot, hlast, -⟩ := synth_frame c note mod frames s
  rw [h] at hcount hslot hlast
  refine ⟨fun i => ?_, hcount, hslot, hlast⟩
  obtain ⟨hnote, hwti⟩ := synth_note_wti c note mod frames s i
  rw [hnote, hwti, h, allocFull_voice]
  exact ⟨rfl, rfl⟩

theorem alloc_of_pair (c : Cfg) (base : BitVec 8) {s : State} {off : BitVec 9}
    (h : allocPolicy s.mode = .pair off) :
    alloc c base s = allocFull c (baseNote9 base) (baseNote9 base + off) s := by
  simp only [alloc, h, allocPair]

theorem alloc_of_unison (c : Cfg) (base : BitVec 8) {s : State} (h : allocPolicy s.mode = .unison) :
    alloc c base s = allocFull c (baseNote9 base) (baseNote9 base) s := by
  simp only [alloc, h, allocUni]

/-- A base note and a pair's offset add up in 9 bits without wrap (R114). -/
theorem baseNote9_add_toNat (base : BitVec 8) {m : Mode} {off : BitVec 9}
    (h : allocPolicy m = .pair off) : (baseNote9 base + off).toNat = base.toNat + off.toNat := by
  have hbase := base.isLt
  have hoff := allocPolicy_pair_le h
  rw [BitVec.toNat_add, baseNote9_toNat]
  exact Nat.mod_eq_of_lt (by omega)

/-- Settles O27: slots 1 and 3 get the offset note, which fits 9 bits. -/
theorem pairAllocation : Obligations.PairAllocation := by
  unfold Obligations.PairAllocation
  intro s note mod frames hmode
  have hpolicy := allocPolicy_pairFamily hmode
  obtain ⟨hslots, hrest⟩ :=
    synth_of_fullReset mod frames (alloc_of_pair Config.cfg note hpolicy)
  refine ⟨_, exec_synth note mod frames s, fun i => ?_, hrest⟩
  obtain ⟨hnote, hwti⟩ := hslots i
  rw [waveKind_pairFamily hmode] at hwti
  refine ⟨?_, hwti⟩
  rw [hnote]
  split
  · exact baseNote9_toNat note
  · rw [baseNote9_add_toNat note hpolicy, apply_ite BitVec.toNat]
    rfl

/-- Settles O28: both notes of the rebuild are the base note. -/
theorem unisonAllocation : Obligations.UnisonAllocation := by
  unfold Obligations.UnisonAllocation
  intro s note mod frames hmode
  obtain ⟨hslots, hrest⟩ :=
    synth_of_fullReset mod frames (alloc_of_unison Config.cfg note (allocPolicy_unisonFamily hmode))
  refine ⟨_, exec_synth note mod frames s, fun i => ?_, hrest⟩
  obtain ⟨hnote, hwti⟩ := hslots i
  rw [ite_self] at hnote
  exact ⟨hnote ▸ baseNote9_toNat note, hwti.trans (tableIndex_unisonFamily hmode _)⟩

end Sys2Proof.Machine
end

section
/-! The resolver family (42_resolver.md): the draws a whole `SYNTH` takes and the increments it leaves. The frame
loop after the stage writes no increment and takes no draw. -/

namespace Sys2Proof.Machine

/-- A `SYNTH` takes as many draws as slots are active after it (R136). -/
theorem synth_draws_count (c : Cfg) (note mod : BitVec 8) (frames : BitVec 12) (s : State) :
    (synth c note mod frames s).draws =
      s.draws + min (synth c note mod frames s).voiceCount.toNat 4 := by
  obtain ⟨hdraws, -⟩ := resolve_spec c mod (alloc c note s)
  obtain ⟨-, -, -, -, -, -, -, adraws⟩ := alloc_frame c note s
  obtain ⟨-, -, -, hcount, -⟩ := synth_frame c note mod frames s
  rw [synth_draws, controlUpdate, hdraws, adraws, hcount]

/-- An active slot `i` gets the increment of the note it holds, with draw number `i` of the operation: the
allocator writes neither the detune amount nor the draws the resolver reads (R130, R136). -/
theorem synth_inc_of_active (c : Cfg) (note mod : BitVec 8) (frames : BitVec 12) (s : State) {i : Fin 4}
    (h : (synth c note mod frames s).isActive i) :
    ((synth c note mod frames s).voice i).inc =
      resolvedInc c mod s.detuneAmount i ((synth c note mod frames s).voice i).note
        (c.noise (s.draws + i.val)) := by
  obtain ⟨-, hvoice⟩ := resolve_spec c mod (alloc c note s)
  obtain ⟨-, -, adetune, -, -, -, -, adraws⟩ := alloc_frame c note s
  obtain ⟨-, -, -, hcount, -⟩ := synth_frame c note mod frames s
  obtain ⟨hnote, -⟩ := synth_note_wti c note mod frames s i
  obtain ⟨ucount, -⟩ := controlUpdate_alloc c note mod s
  rw [State.isActive, hcount] at h
  rw [hnote, synth_voice, ucount, if_pos h, controlUpdate, hvoice i, if_pos h, adetune, adraws]

/-- A slot that is not active keeps its increment: the allocator writes none (10_state.md R33). -/
theorem synth_inc_of_inactive (c : Cfg) (note mod : BitVec 8) (frames : BitVec 12) (s : State) {i : Fin 4}
    (h : ¬ (synth c note mod frames s).isActive i) :
    ((synth c note mod frames s).voice i).inc = (s.voice i).inc := by
  obtain ⟨-, -, -, hcount, -⟩ := synth_frame c note mod frames s
  obtain ⟨-, hinc⟩ := alloc_phase_inc c note s i
  rw [State.isActive, hcount, Nat.not_lt] at h
  rw [synth_voice_inactive c note mod frames s h, hinc]

/-- The increment written out: detune offset, modulation, interpolation, clip, scaling and dither (R130 to
R134). -/
theorem resolvedInc_formula (c : Cfg) (mod : BitVec 8) (detune : Num32) (i : Fin 4) (note : BitVec 9)
    (n : Num32) :
    resolvedInc c mod detune i note n =
      F32.add
        (F32.mul
          (c.clipMax
            (c.lerp
              (F32.add (F32.mul (F32.ofNat mod.toNat) c.noteModScale)
                (if i.val < 2 then F32.neg detune else detune))
              (c.noteHz note) (c.noteHz (note + 1#9)))
            c.fMax)
          c.srRecip)
        (F32.mul c.ditherScale n) := rfl

/-- Settles O31: an active slot has the increment the resolver computes, a slot that is not active its old
one. -/
theorem resolveSetsIncrements : Obligations.ResolveSetsIncrements := by
  unfold Obligations.ResolveSetsIncrements
  intro s note mod frames
  refine ⟨_, exec_synth note mod frames s, synth_draws_count Config.cfg note mod frames s, fun i => ?_⟩
  split
  · next hactive =>
    exact (synth_inc_of_active Config.cfg note mod frames s hactive).trans
      (resolvedInc_formula Config.cfg mod s.detuneAmount i _ _)
  · next hinactive => exact synth_inc_of_inactive Config.cfg note mod frames s hinactive

/-- Slots of one half have one detune offset (R131). -/
theorem detuneOffset_of_half (detune : Num32) {i j : Fin 4} (h : i.val < 2 ↔ j.val < 2) :
    detuneOffset detune i = detuneOffset detune j := if_congr h rfl rfl

/-- Settles O32: the slot's index enters its increment through the detune offset and the draw alone. -/
theorem halfMatesDifferByDitherOnly : Obligations.HalfMatesDifferByDitherOnly := by
  unfold Obligations.HalfMatesDifferByDitherOnly
  intro c s note mod frames i j hi hj hhalf hnote hdraw
  rw [synth_inc_of_active c note mod frames s hi, synth_inc_of_active c note mod frames s hj, hnote, hdraw]
  unfold resolvedInc
  rw [detuneOffset_of_half s.detuneAmount hhalf]

end Sys2Proof.Machine
end

section
/-! The phase accumulator and the mixers (43_phase_waveform.md). Rounding keeps every bound that a datum
stands for (`F32.magUnits_add_le`, `F32.magUnits_mul_le`); the headroom of both mixers and the range of a
wrapped phase rest on that, the exact cases on sums that a datum stands for. -/

namespace Sys2Proof.Machine

/-! ## Rounding keeps bounds -/

/-- A bound on a magnitude that a finite pattern stands for is one on the packed rounding. -/
theorem F32.pack_roundMag_le (neg : Bool) {n d p : Nat} (hd : 0 < d) (hp : p < 0x7F800000)
    (h : n ≤ F32.patUnits p * d) :
    F32.isFinite (F32.pack neg (F32.roundMag n d)) = true ∧
    F32.magUnits (F32.pack neg (F32.roundMag n d)) ≤ F32.patUnits p := by
  have hle := F32.roundMag_le hd h
  rw [F32.isFinite_pack_roundMag, F32.magUnits_pack neg (F32.roundMag_lt n d), F32.patUnits_le_iff]
  exact ⟨by omega, hle⟩

theorem F32.magUnits_add_le {a b : Num32} (ha : F32.isFinite a = true) (hb : F32.isFinite b = true)
    {p : Nat} (hp : p < 0x7F800000) (h : (F32.units a + F32.units b).natAbs ≤ F32.patUnits p) :
    F32.isFinite (F32.add a b) = true ∧ F32.magUnits (F32.add a b) ≤ F32.patUnits p := by
  rw [F32.add_of_finite ha hb]
  exact F32.pack_roundMag_le _ Nat.one_pos hp (by rwa [Nat.mul_one])

theorem F32.magUnits_mul_le {a b : Num32} (ha : F32.isFinite a = true) (hb : F32.isFinite b = true)
    {p : Nat} (hp : p < 0x7F800000)
    (h : F32.magUnits a * F32.magUnits b ≤ F32.patUnits p * F32.oneUnits) :
    F32.isFinite (F32.mul a b) = true ∧ F32.magUnits (F32.mul a b) ≤ F32.patUnits p := by
  rw [F32.mul_of_finite ha hb]
  exact F32.pack_roundMag_le _ (by decide) hp h

theorem F32.inSignedUnit_iff (x : Num32) :
    F32.inSignedUnit x = true ↔ F32.isFinite x = true ∧ F32.magUnits x ≤ F32.oneUnits := by
  unfold F32.inSignedUnit
  rw [Bool.and_eq_true, decide_eq_true_eq]

/-- A factor in [-1, 1] makes no number larger. -/
theorem F32.magUnits_mul_inSignedUnit_le {a x : Num32} (ha : F32.isFinite a = true)
    (hx : F32.inSignedUnit x = true) :
    F32.isFinite (F32.mul a x) = true ∧ F32.magUnits (F32.mul a x) ≤ F32.magUnits a := by
  obtain ⟨hxf, hx1⟩ := (F32.inSignedUnit_iff x).mp hx
  exact F32.magUnits_mul_le ha hxf ((F32.isFinite_iff a).mp ha) (Nat.mul_le_mul_left _ hx1)

/-- A zero factor makes a zero. -/
theorem F32.magUnits_mul_zero {a x : Num32} (ha : F32.isFinite a = true) (hx : F32.isFinite x = true)
    (h0 : F32.magUnits x = 0) : F32.magUnits (F32.mul a x) = 0 := by
  obtain ⟨-, hle⟩ := F32.magUnits_mul_le (p := 0) ha hx (by decide) (by rw [h0]; exact Nat.zero_le _)
  exact Nat.le_zero.mp hle

/-! ## One frame of the accumulator (R156 to R158) -/

/-- A number below 1 is at most the datum before 1. -/
theorem F32.units_le_of_inPhaseRange {x : Num32} (h : F32.inPhaseRange x = true) :
    F32.units x ≤ 2 ^ 149 - 2 ^ 125 := by
  obtain ⟨-, h0, h1⟩ := (F32.inPhaseRange_iff x).mp h
  have habs := F32.natAbs_units x
  have hone : F32.patUnits 0x3F800000 = 2 ^ 149 := by decide +kernel
  have hpred : F32.patUnits 0x3F7FFFFF = 2 ^ 149 - 2 ^ 125 := by decide +kernel
  have hmag : F32.mag x < 0x3F800000 := by
    by_contra hc
    have : F32.patUnits 0x3F800000 ≤ F32.magUnits x := F32.patUnits_le_iff.mpr (by omega)
    omega
  have hle : F32.magUnits x ≤ F32.patUnits 0x3F7FFFFF := F32.patUnits_le_iff.mpr (by omega)
  omega

/-- A phase and a finite increment have a finite sum: the phase is less than half the last place of the
largest number. -/
theorem F32.add_finite_of_inPhaseRange {p w : Num32} (hp : F32.inPhaseRange p = true)
    (hw : F32.isFinite w = true) : F32.isFinite (F32.add p w) = true := by
  obtain ⟨hpf, hp0, hp1⟩ := (F32.inPhaseRange_iff p).mp hp
  have hmax := F32.magUnits_finite_le hw
  have habs := F32.natAbs_units w
  rw [F32.add_of_finite hpf hw, F32.isFinite_pack_roundMag]
  exact F32.roundMag_finite (by omega)

/-- A phase and an increment in [0, 1) have a sum in [0, 2): the largest exact sum is a datum below 2. -/
theorem F32.add_inPhaseRange_lt_two {p w : Num32} (hp : F32.inPhaseRange p = true)
    (hw : F32.inPhaseRange w = true) :
    0 ≤ F32.units (F32.add p w) ∧ F32.units (F32.add p w) < 2 * 2 ^ 149 := by
  obtain ⟨hpf, hp0, -⟩ := (F32.inPhaseRange_iff p).mp hp
  obtain ⟨hwf, hw0, -⟩ := (F32.inPhaseRange_iff w).mp hw
  have hp1 := F32.units_le_of_inPhaseRange hp
  have hw1 := F32.units_le_of_inPhaseRange hw
  have hpred : F32.patUnits 0x3FFFFFFF = 2 ^ 150 - 2 ^ 126 := by decide +kernel
  obtain ⟨-, hle⟩ := F32.magUnits_add_le hpf hwf (p := 0x3FFFFFFF) (by decide) (by omega)
  have habs := F32.natAbs_units (F32.add p w)
  exact ⟨F32.add_nonneg hpf hwf (by omega), by omega⟩

/-- `x - floor(x)` lies in [0, 1] for every finite `x`: exactly it is below 1, and 1 is a datum. -/
theorem F32.sub_floor_inUnit {x : Num32} (hx : F32.isFinite x = true) :
    F32.inUnit (F32.sub x (F32.floor x)) = true := by
  obtain ⟨hfin, hfloor⟩ := floorIsGreatestInteger x hx
  have hneg : F32.isFinite (F32.neg (F32.floor x)) = true := by rwa [F32.isFinite_neg]
  have hone : F32.patUnits 0x3F800000 = F32.oneUnits := by decide +kernel
  have hdiff : F32.units x + F32.units (F32.neg (F32.floor x)) = F32.units x % 2 ^ 149 := by
    rw [F32.units_neg, hfloor]
    omega
  have h0 := F32.add_nonneg hx hneg (by omega)
  obtain ⟨hsub, hle⟩ := F32.magUnits_add_le hx hneg (p := 0x3F800000) (by decide)
    (by rw [hdiff, hone, F32.oneUnits]; omega)
  have habs := F32.natAbs_units (F32.add x (F32.neg (F32.floor x)))
  unfold F32.inUnit F32.sub
  rw [Bool.and_eq_true, Bool.and_eq_true, decide_eq_true_eq, decide_eq_true_eq]
  exact ⟨⟨hsub, h0⟩, by omega⟩

/-- Where the sum is not negative, one frame leaves exactly its fraction. -/
theorem nextPhase_of_sum_nonneg {p w : Num32} (hp : F32.inPhaseRange p = true)
    (hw : F32.isFinite w = true) (h0 : 0 ≤ F32.units (F32.add p w)) :
    F32.inPhaseRange (nextPhase p w) = true ∧
    F32.units (nextPhase p w) = F32.units (F32.add p w) % 2 ^ 149 := by
  obtain ⟨hfin, hval⟩ := F32.sub_floor_exact (F32.add_finite_of_inPhaseRange hp hw) h0
  refine ⟨(F32.inPhaseRange_iff _).mpr ⟨hfin, ?_⟩, hval⟩
  rw [nextPhase, hval]
  exact ⟨Int.emod_nonneg _ (by decide), Int.emod_lt_of_pos _ (by decide)⟩

/-- Settles O35: the sum is finite, its fraction is exact where it is not negative, and at most 1 after
rounding where it is negative; the last clause is one concrete sum. -/
theorem phaseWrapIsExact : Obligations.PhaseWrapIsExact :=
  ⟨fun _ _ => nextPhase_of_sum_nonneg, fun _ _ => F32.add_inPhaseRange_lt_two,
    fun _ _ hp hw _ => F32.sub_floor_inUnit (F32.add_finite_of_inPhaseRange hp hw),
    by decide +kernel⟩

/-- On the grid the sum is below 2 and a multiple of 2^-23, which a datum stands for, so one frame is
exact. -/
theorem nextPhase_units_of_grid {p w : Num32} (hp : F32.inPhaseRange p = true)
    (hw : F32.inPhaseRange w = true) (hpg : F32.onPhaseGrid p) (hwg : F32.onPhaseGrid w) :
    F32.units (nextPhase p w) = (F32.units p + F32.units w) % 2 ^ 149 := by
  obtain ⟨hpf, hp0, hp1⟩ := (F32.inPhaseRange_iff p).mp hp
  obtain ⟨hwf, hw0, hw1⟩ := (F32.inPhaseRange_iff w).mp hw
  obtain ⟨-, hpm⟩ := hpg
  obtain ⟨-, hwm⟩ := hwg
  obtain ⟨q, hq, hpat⟩ := F32.exists_pattern (u := (F32.units p + F32.units w).natAbs)
    (m := (F32.units p + F32.units w).natAbs / 2 ^ 126) (k := 126) (by omega) (by omega) (by omega)
  obtain ⟨-, hsum⟩ := F32.add_exact hpf hwf hq hpat
  obtain ⟨-, hval⟩ := nextPhase_of_sum_nonneg hp hwf (by omega)
  rw [hval, hsum]

/-- The accumulator stays on the grid. -/
theorem phaseAfter_onPhaseGrid {v : Voice} (hp : F32.inPhaseRange v.phase = true)
    (hw : F32.inPhaseRange v.inc = true) (hpg : F32.onPhaseGrid v.phase)
    (hwg : F32.onPhaseGrid v.inc) (k : Nat) : F32.onPhaseGrid (phaseAfter v k) := by
  obtain ⟨hwf, hw0, -⟩ := (F32.inPhaseRange_iff v.inc).mp hw
  induction k with
  | zero => exact hpg
  | succ k ih =>
    obtain ⟨hfin, -, -⟩ := (F32.inPhaseRange_iff _).mp (phaseAfter_inPhaseRange hp hwf hw0 (k + 1))
    have hval := nextPhase_units_of_grid (phaseAfter_inPhaseRange hp hwf hw0 k) hw ih hwg
    obtain ⟨-, hpm⟩ := ih
    obtain ⟨-, hwm⟩ := hwg
    refine ⟨hfin, ?_⟩
    show F32.units (nextPhase (phaseAfter v k) v.inc) % 2 ^ 126 = 0
    omega

/-- Settles O36, by induction on the frames, each of them exact on the grid. -/
theorem phaseAccumulatorExactOnGrid : Obligations.PhaseAccumulatorExactOnGrid := by
  unfold Obligations.PhaseAccumulatorExactOnGrid
  intro v k hp hw hpg hwg
  obtain ⟨hwf, hw0, -⟩ := (F32.inPhaseRange_iff v.inc).mp hw
  induction k with
  | zero =>
    obtain ⟨-, hp0, hp1⟩ := (F32.inPhaseRange_iff v.phase).mp hp
    rw [Nat.cast_zero, Int.zero_mul, Int.add_zero, Int.emod_eq_of_lt hp0 hp1]
    rfl
  | succ k ih =>
    calc F32.units (phaseAfter v (k + 1))
        = (F32.units (phaseAfter v k) + F32.units v.inc) % 2 ^ 149 :=
          nextPhase_units_of_grid (phaseAfter_inPhaseRange hp hwf hw0 k) hw
            (phaseAfter_onPhaseGrid hp hw hpg hwg k) hwg
      _ = (F32.units v.phase + k * F32.units v.inc + F32.units v.inc) % 2 ^ 149 := by
          rw [ih, Int.emod_add_emod]
      _ = (F32.units v.phase + ↑(k + 1) * F32.units v.inc) % 2 ^ 149 := by
          congr 1
          push_cast
          ring

/-! ## The mixers (R152 to R155) -/

theorem mix_of_additive (c : Cfg) {s : State} (h : combination s.mode = .additive) :
    mix c s = mixAdd c s := by
  unfold mix
  rw [h]

theorem mix_of_ring (c : Cfg) {s : State} (h : combination s.mode = .ring) :
    mix c s = mixRing c s := by
  unfold mix
  rw [h]

theorem State.activeSlots_of_noVoice {s : State} (h : s.voiceCount = 0#3) : s.activeSlots = [] := by
  unfold State.activeSlots
  rw [h]
  rfl

/-- One voice adds at most a quarter: a multiple of 1/4 with few digits is a datum, so rounding does not
pass it. -/
theorem F32.add_weighted_le {sig x : Num32} {n : Nat} (hsig : F32.isFinite sig = true)
    (hle : F32.magUnits sig * 4 ≤ n * 2 ^ 149) (hx : F32.inSignedUnit x = true) (hn : n + 1 < 2 ^ 24) :
    F32.isFinite (F32.add sig (F32.mul Config.mixWeight x)) = true ∧
    F32.magUnits (F32.add sig (F32.mul Config.mixWeight x)) * 4 ≤ (n + 1) * 2 ^ 149 := by
  obtain ⟨hy, hyle⟩ := F32.magUnits_mul_inSignedUnit_le (a := Config.mixWeight) (by decide) hx
  have hweight : F32.magUnits Config.mixWeight = 2 ^ 147 := by decide +kernel
  obtain ⟨p, hp, hpat⟩ := F32.exists_pattern (m := n + 1) (k := 147) rfl hn (by omega)
  have habs := F32.natAbs_units sig
  have hyabs := F32.natAbs_units (F32.mul Config.mixWeight x)
  obtain ⟨hfin, hbound⟩ := F32.magUnits_add_le hsig hy hp (by omega)
  exact ⟨hfin, by omega⟩

/-- The sum of weighted samples grows by at most a quarter a voice. -/
theorem foldl_add_weighted_le {f : Fin 4 → Num32} {l : List (Fin 4)}
    (hf : ∀ i ∈ l, F32.inSignedUnit (f i) = true) {sig : Num32} {n : Nat}
    (hsig : F32.isFinite sig = true) (hle : F32.magUnits sig * 4 ≤ n * 2 ^ 149)
    (hn : n + l.length < 2 ^ 24) :
    F32.isFinite (l.foldl (fun sig i => F32.add sig (F32.mul Config.mixWeight (f i))) sig) = true ∧
    F32.magUnits (l.foldl (fun sig i => F32.add sig (F32.mul Config.mixWeight (f i))) sig) * 4 ≤
      (n + l.length) * 2 ^ 149 := by
  induction l generalizing sig n with
  | nil => exact ⟨hsig, hle⟩
  | cons i l ih =>
    rw [List.length_cons, Nat.add_comm l.length, ← Nat.add_assoc] at hn ⊢
    obtain ⟨hi, hl⟩ := List.forall_mem_cons.mp hf
    obtain ⟨hfin, hbound⟩ := F32.add_weighted_le hsig hle hi (by omega)
    exact ih hl hfin hbound hn

/-- Settles O38: the sum starts at +0 and has one term for each active slot. -/
theorem additiveMixHasHeadroom : Obligations.AdditiveMixHasHeadroom := by
  unfold Obligations.AdditiveMixHasHeadroom
  intro c s hmode
  rw [mix_of_additive c hmode]
  refine ⟨fun hsample => ?_, fun h0 => ?_⟩
  · rw [mixAdd_eq]
    have hlen := s.length_activeSlots
    have hbound := foldl_add_weighted_le (fun i hi => hsample i ((s.mem_activeSlots i).mp hi))
      (sig := F32.zero) (n := 0) (by decide) (by decide) (by omega)
    rwa [Nat.zero_add, hlen] at hbound
  · unfold mixAdd
    rw [State.activeSlots_of_noVoice h0]
    rfl

/-- A product with samples in [-1, 1] is no larger than its seed. -/
theorem foldl_mul_le {f : Fin 4 → Num32} {l : List (Fin 4)}
    (hf : ∀ i ∈ l, F32.inSignedUnit (f i) = true) {sig : Num32} (hsig : F32.isFinite sig = true) :
    F32.isFinite (l.foldl (fun sig i => F32.mul sig (f i)) sig) = true ∧
    F32.magUnits (l.foldl (fun sig i => F32.mul sig (f i)) sig) ≤ F32.magUnits sig := by
  induction l generalizing sig with
  | nil => exact ⟨hsig, le_rfl⟩
  | cons i l ih =>
    obtain ⟨hi, hl⟩ := List.forall_mem_cons.mp hf
    obtain ⟨hfin, hle⟩ := F32.magUnits_mul_inSignedUnit_le hsig hi
    obtain ⟨hfin', hle'⟩ := ih hl hfin
    exact ⟨hfin', hle'.trans hle⟩

/-- A zero sample makes the product a zero, which the later samples keep. -/
theorem foldl_mul_zero {f : Fin 4 → Num32} {l : List (Fin 4)}
    (hf : ∀ i ∈ l, F32.inSignedUnit (f i) = true) {sig : Num32} (hsig : F32.isFinite sig = true)
    {j : Fin 4} (hj : j ∈ l) (h0 : F32.magUnits (f j) = 0) :
    F32.magUnits (l.foldl (fun sig i => F32.mul sig (f i)) sig) = 0 := by
  induction l generalizing sig with
  | nil => cases hj
  | cons i l ih =>
    obtain ⟨hi, hl⟩ := List.forall_mem_cons.mp hf
    obtain ⟨hfin, -⟩ := F32.magUnits_mul_inSignedUnit_le hsig hi
    rcases List.mem_cons.mp hj with rfl | hj
    · obtain ⟨hjf, -⟩ := (F32.inSignedUnit_iff (f j)).mp hi
      obtain ⟨-, hle⟩ := foldl_mul_le hl hfin
      rw [F32.magUnits_mul_zero hsig hjf h0] at hle
      exact Nat.le_zero.mp hle
    · exact ih hl hfin hj

/-- Settles O39: the product starts at the seed, which is also what no factor leaves. -/
theorem ringMixIsMultiplicative : Obligations.RingMixIsMultiplicative := by
  unfold Obligations.RingMixIsMultiplicative
  intro c s hmode
  rw [mix_of_ring c hmode]
  refine ⟨fun hsample => ?_, fun h0 => ?_⟩
  · have hf : ∀ i ∈ s.activeSlots,
        F32.inSignedUnit (c.blSqr (s.voice i).phase (s.voice i).wti) = true :=
      fun i hi => hsample i ((s.mem_activeSlots i).mp hi)
    have hseed : F32.isFinite Config.ringSeed = true := by decide
    rw [mixRing_eq]
    obtain ⟨hfin, hle⟩ := foldl_mul_le hf hseed
    exact ⟨hfin, hle, fun ⟨i, hi, hzero⟩ =>
      foldl_mul_zero hf hseed ((s.mem_activeSlots i).mpr hi) hzero⟩
  · unfold mixRing
    rw [State.activeSlots_of_noVoice h0]
    rfl

end Sys2Proof.Machine
end

section
/-! The drive stage at amount 0 and the default output conversion (44_drive_output.md). At amount 0 the
clipped part is multiplied by a zero gain and the dry part by 1, so a zero is added to the mix
(`drive_zeroAmount`). The default conversion drops the 118 low bits of the magnitude
(`Rc0.fixedInt_cases`), and each of its cases is a bound on that quotient. -/

namespace Sys2Proof.Machine

/-! ## Numbers with a zero or a one -/

/-- Data of equal value are the same pattern, unless they are zeros. -/
theorem F32.eq_of_units_eq {x y : Num32} (h : F32.units x = F32.units y) (h0 : F32.magUnits y ≠ 0) :
    x = y := by
  have hmag : F32.magUnits x = F32.magUnits y := by rw [← F32.natAbs_units, h, F32.natAbs_units]
  have hsign : F32.sign x = F32.sign y := by
    rw [F32.units_eq_signed, F32.units_eq_signed, hmag] at h
    by_contra hne
    rw [Bool.eq_not_of_ne hne, F32.signed_not] at h
    have habs := F32.natAbs_signed (F32.sign y) (F32.magUnits y)
    omega
  rw [← F32.pack_sign_mag x, ← F32.pack_sign_mag y, hsign, F32.patUnits_inj hmag]

/-- A product with 1 is the other factor, bit for bit. -/
theorem F32.one_mul {m : Num32} (hm : F32.isFinite m = true) : F32.mul F32.one m = m := by
  have hone : F32.magUnits F32.one = F32.oneUnits := by decide +kernel
  rw [F32.mul_of_finite (by decide) hm, hone, Nat.mul_comm,
    show F32.magUnits m = F32.patUnits (F32.mag m) from rfl,
    F32.roundMag_exact (by decide) ((F32.isFinite_iff m).mp hm),
    show F32.sign F32.one = false by decide, Bool.false_xor, F32.pack_sign_mag]

/-- A product with a zero is a finite zero. -/
theorem F32.units_zero_mul {x : Num32} (hx : F32.isFinite x = true) :
    F32.isFinite (F32.mul F32.zero x) = true ∧ F32.units (F32.mul F32.zero x) = 0 := by
  have hzero : F32.magUnits F32.zero = 0 := by decide
  obtain ⟨hfin, hle⟩ := F32.magUnits_mul_le (p := 0) (a := F32.zero) (by decide) hx (by decide)
    (by rw [hzero, Nat.zero_mul]; exact Nat.zero_le _)
  have habs := F32.natAbs_units (F32.mul F32.zero x)
  rw [show F32.patUnits 0 = 0 by decide] at hle
  exact ⟨hfin, by omega⟩

/-- Adding a zero keeps the value. -/
theorem F32.units_zero_add {z m : Num32} (hz : F32.isFinite z = true) (hz0 : F32.units z = 0)
    (hm : F32.isFinite m = true) :
    F32.isFinite (F32.add z m) = true ∧ F32.units (F32.add z m) = F32.units m := by
  have hsum : F32.units z + F32.units m = F32.units m := by rw [hz0, Int.zero_add]
  rw [← hsum]
  exact F32.add_exact hz hm ((F32.isFinite_iff m).mp hm) (by rw [hsum, F32.natAbs_units]; rfl)

/-! ## The drive stage at amount 0 (R172 a) -/

@[simp] theorem driveThreshold_zero : driveThreshold 0#32 = 0#32 := by decide +kernel

@[simp] theorem driveGain_zero : driveGain 0#32 = F32.zero := by decide +kernel

/-- The drive stage at amount 0 keeps the value of the mix where the soft clip is finite. -/
theorem drive_zeroAmount {c : Cfg} {m : Num32} (hm : F32.isFinite m = true)
    (hclip : F32.isFinite (c.softClip 0#32 m) = true) :
    F32.isFinite (drive c 0#32 m) = true ∧ F32.units (drive c 0#32 m) = F32.units m := by
  have hdry : F32.sub F32.one 0#32 = F32.one := by decide +kernel
  obtain ⟨hwet, hwet0⟩ := F32.units_zero_mul hclip
  unfold drive
  rw [driveThreshold_zero, driveGain_zero, hdry, F32.one_mul hm]
  exact F32.units_zero_add hwet hwet0 hm

/-- A conforming soft clip is finite for finite operands (46_primitives.md R216). -/
theorem Prim.softClip_isFinite (f : Num32 → Num32 → Num32) {t s : Num32} (ht : F32.isFinite t = true)
    (hs : F32.isFinite s = true) : F32.isFinite (Prim.softClip f t s) = true := by
  unfold Prim.softClip
  rw [ht, hs]
  exact Prim.finite_isFinite _

/-- A conforming conversion gives both zeros the word 0 (90_conflicts.md C6). -/
theorem conv_conform_zero (c : Cfg) {x : Num32} (hx : F32.isFinite x = true)
    (h0 : F32.magUnits x = 0) : conv c.conform x = 0#32 := by
  unfold conv
  rw [Cfg.conform_toFixed]
  unfold Prim.toFixed
  rw [hx, h0]
  rfl

/-- Finite numbers of one value convert to one word under a conforming conversion. -/
theorem conv_conform_congr (c : Cfg) {x y : Num32} (hx : F32.isFinite x = true)
    (hy : F32.isFinite y = true) (h : F32.units x = F32.units y) :
    conv c.conform x = conv c.conform y := by
  by_cases h0 : F32.magUnits y = 0
  · have hx0 : F32.magUnits x = 0 := by rw [← F32.natAbs_units, h, F32.natAbs_units, h0]
    rw [conv_conform_zero c hx hx0, conv_conform_zero c hy h0]
  · rw [F32.eq_of_units_eq h h0]

/-- Settles O40: the drive stage keeps the value, a value other than 0 has one pattern, and the conversion
sees the value only. -/
theorem driveAtZeroIsIdentity : Obligations.DriveAtZeroIsIdentity := by
  unfold Obligations.DriveAtZeroIsIdentity
  constructor
  · intro c m hm
    have hclip : F32.isFinite (c.conform.softClip 0#32 m) = true :=
      Prim.softClip_isFinite c.softClip (by decide) hm
    obtain ⟨hfin, hunits⟩ := drive_zeroAmount hm hclip
    exact ⟨hunits, F32.eq_of_units_eq hunits, conv_conform_congr c hfin hm hunits⟩
  · intro c m hm hclip
    obtain ⟨-, hunits⟩ := drive_zeroAmount hm hclip
    exact ⟨hunits, F32.eq_of_units_eq hunits⟩

/-! ## The default conversion (R177) -/

/-- Truncation toward zero of `x * 2^31` drops the 118 low bits of the magnitude, for either sign. -/
theorem Rc0.fixedInt_cases (x : Num32) :
    (F32.units x = F32.magUnits x ∧ Rc0.fixedInt x = (F32.magUnits x / 2 ^ 118 : Nat)) ∨
    (F32.units x = -F32.magUnits x ∧ Rc0.fixedInt x = -(F32.magUnits x / 2 ^ 118 : Nat)) := by
  have hpos :
      Int.tdiv ((F32.magUnits x : Int) * 2 ^ 31) F32.oneUnits = (F32.magUnits x / 2 ^ 118 : Nat) := by
    rw [Int.tdiv_eq_ediv_of_nonneg (by positivity), show (F32.oneUnits : Int) = 2 ^ 149 from rfl]
    omega
  unfold Rc0.fixedInt
  rw [F32.units_eq_signed]
  cases F32.sign x
  · exact .inl ⟨rfl, hpos⟩
  · exact .inr ⟨rfl, by rw [F32.signed, if_pos rfl, Int.neg_mul, Int.neg_tdiv, hpos]⟩

/-- The word of a finite number, read as a signed integer, is the clamped truncation. -/
theorem Rc0.toFixed_toInt {x : Num32} (hx : F32.isFinite x = true) :
    (Rc0.toFixed x).toInt = Rc0.sat32 (Rc0.fixedInt x) := by
  unfold Rc0.toFixed
  rw [hx, if_pos rfl, BitVec.toInt_ofInt]
  unfold Rc0.sat32
  exact Int.bmod_eq_of_le (by omega) (by omega)

/-- Settles O47: each case bounds the magnitude, and with it the quotient that is clamped; from 2^-8 on the
low bits that truncation drops are 0. -/
theorem defaultToFixedTruncatesAndSaturates : Obligations.DefaultToFixedTruncatesAndSaturates := by
  unfold Obligations.DefaultToFixedTruncatesAndSaturates
  refine ⟨fun x hx => ?_, by decide +kernel⟩
  have hword := Rc0.toFixed_toInt hx
  have hcases := Rc0.fixedInt_cases x
  refine ⟨hword, fun h => ?_, fun h => ?_, fun h => ?_, fun hlo hhi => ?_⟩
  · have hsat : Rc0.sat32 (Rc0.fixedInt x) = 2 ^ 31 - 1 := by unfold Rc0.sat32; omega
    exact BitVec.eq_of_toInt_eq (hword.trans hsat)
  · have hsat : Rc0.sat32 (Rc0.fixedInt x) = -2 ^ 31 := by unfold Rc0.sat32; omega
    exact BitVec.eq_of_toInt_eq (hword.trans hsat)
  · have hsat : Rc0.sat32 (Rc0.fixedInt x) = 0 := by unfold Rc0.sat32; omega
    exact BitVec.eq_of_toInt_eq (hword.trans hsat)
  · have hdvd : 2 ^ 118 ∣ F32.magUnits x := F32.patUnits_dvd hlo
    have hsat : Rc0.sat32 (Rc0.fixedInt x) = Rc0.fixedInt x := by unfold Rc0.sat32; omega
    rw [hword, hsat]
    omega

end Sys2Proof.Machine
end

section
/-! The lifecycle family (45_lifecycle.md). A lifecycle operation does not look at `cmd_ready`, so a step on its
word is the operation run on the state that only lacks the word (`step_of_lifecycle`). The drive value is the
clip of a rounded product, which the cases of the clip evaluate. -/

namespace Sys2Proof.Machine

/-! ## A step on the word of a lifecycle operation (20_memory.md R52) -/

/-- Where an operation answers `write`, and `write` sees nothing of `cmd_ready`, the step on its word takes the
word and does what `write` does. -/
theorem step_of_lifecycle {s : State} {w : CmdWord} {rest : List CmdWord} {i : Instr}
    {write : State → State} (hw : s.offered w rest) (hd : decode w = .operation i)
    (hexec : ∀ t, exec i t = .next (write t))
    (hport : ∀ t : State, (write { t with cmdReady := false }).complete = write t.complete) :
    step s = .next (write { s with cmds := rest }) := by
  have hready : ({ s with cmds := rest } : State).complete = { s with cmds := rest } := by
    obtain ⟨hready, -⟩ := hw
    simp [State.complete, ← hready]
  rw [step_of_operation hw.transfer hd (hexec _)]
  exact congrArg _ ((hport { s with cmds := rest }).trans (congrArg write hready))

/-- Stated of any `d`, so that the other fields are compared without computing it. -/
theorem State.complete_setDrive (s : State) (d : Num32) :
    ({ s with cmdReady := false, driveAmount := d } : State).complete =
      { s.complete with driveAmount := d } := rfl

/-- Settles O13: the answer is the state with its registers zeroed. -/
theorem initZeroesRegistersOnly : Obligations.InitZeroesRegistersOnly := by
  unfold Obligations.InitZeroesRegistersOnly
  refine ⟨fun s plat api =>
    ⟨_, exec_init plat api s, s.registersZero_zeroRegisters, s.sameOutside_refl⟩, ?_⟩
  intro s w rest hw hrow
  have hd := (Selects.init ((mask_op w 0#4).mp hrow)).decode_eq
  exact ⟨_, step_of_lifecycle hw hd (exec_init _ _) (fun _ => rfl),
    State.registersZero_zeroRegisters _, State.sameOutside_refl _⟩

/-- Settles O14: the answer, and the step on each word that selects `NOTEON`. -/
theorem noteOnDeactivatesVoices : Obligations.NoteOnDeactivatesVoices := by
  unfold Obligations.NoteOnDeactivatesVoices
  refine ⟨fun s np => exec_noteOn np s, fun s w rest hw hrow => ?_⟩
  have hd := (Selects.noteOn ((mask_op w 2#4).mp hrow)).decode_eq
  exact step_of_lifecycle hw hd (exec_noteOn _) (fun _ => rfl)

/-- Settles O15: the answer, and the step on each word that selects `NOTEOFF`. -/
theorem noteOffChangesNothing : Obligations.NoteOffChangesNothing := by
  unfold Obligations.NoteOffChangesNothing
  refine ⟨fun s np => exec_noteOff np s, fun s w rest hw hrow => ?_⟩
  have hd := (Selects.noteOff ((mask_op w 3#4).mp hrow)).decode_eq
  exact step_of_lifecycle hw hd (exec_noteOff _) (fun _ => rfl)

/-- Settles O18: the answer, and the step on each word that selects `SETP.DETUNE`. -/
theorem setpDetuneStoresMappedValue : Obligations.SetpDetuneStoresMappedValue := by
  unfold Obligations.SetpDetuneStoresMappedValue
  refine ⟨fun s v => exec_setpDetune v s, fun s w rest hw hrow => ?_⟩
  have hd := (Selects.setpDetune ((mask_setp w 4#4 0#4 2#8).mp hrow)).decode_eq
  exact step_of_lifecycle hw hd (exec_setpDetune _) (fun _ => rfl)

/-- Settles O19: the answer, and the step on each word that selects `SETP.AUX`. -/
theorem setpAuxHasNoEffect : Obligations.SetpAuxHasNoEffect := by
  unfold Obligations.SetpAuxHasNoEffect
  refine ⟨fun s v => exec_setpAux v s, fun s w rest hw hrow => ?_⟩
  have hd := (Selects.setpAux ((mask_setp w 4#4 0#4 3#8).mp hrow)).decode_eq
  exact step_of_lifecycle hw hd (exec_setpAux _) (fun _ => rfl)

/-! ## The mode a value names (30_encoding.md R80) -/

theorem Mode.exists_number {n : Nat} (h : n ≤ 5) : ∃ m : Mode, m.number = n := by
  match n, h with
  | 0, _ => exact ⟨.poly, rfl⟩
  | 1, _ => exact ⟨.unison, rfl⟩
  | 2, _ => exact ⟨.octave, rfl⟩
  | 3, _ => exact ⟨.fifth, rfl⟩
  | 4, _ => exact ⟨.unisonRing, rfl⟩
  | 5, _ => exact ⟨.polyRing, rfl⟩

theorem modeOfValue_of_number {m : Mode} {v : BitVec 16} (h : m.number = v.toNat) :
    modeOfValue v = some m := by
  rw [← modeOfValue_number m, h, BitVec.ofNat_toNat, BitVec.setWidth_eq]

theorem modeOfValue_of_gt {v : BitVec 16} (h : 5 < v.toNat) : modeOfValue v = none := by
  have hne : v ≠ 0#16 ∧ v ≠ 1#16 ∧ v ≠ 2#16 ∧ v ≠ 3#16 ∧ v ≠ 4#16 ∧ v ≠ 5#16 := by bv_omega
  simp [modeOfValue, hne]

theorem exec_setpMode_of_number {m : Mode} {v : BitVec 16} (h : m.number = v.toNat) (s : State) :
    exec (.setpMode v) s = .next { s with mode := m } := by
  rw [exec_setpMode, modeOfValue_of_number h]
  rfl

theorem exec_setpMode_of_gt {v : BitVec 16} (h : 5 < v.toNat) (s : State) :
    exec (.setpMode v) s = .next s := by
  rw [exec_setpMode, modeOfValue_of_gt h]
  rfl

/-- Settles O16: a value up to 5 is the number of a mode, a larger one names none; a step does as the
operation. -/
theorem setpModeWritesNamedMode : Obligations.SetpModeWritesNamedMode := by
  unfold Obligations.SetpModeWritesNamedMode
  refine ⟨fun s v => ⟨fun hle => ?_, fun hgt => exec_setpMode_of_gt hgt s⟩,
    fun s w rest hw hrow => ?_⟩
  · obtain ⟨m, hm⟩ := Mode.exists_number hle
    exact ⟨m, hm, exec_setpMode_of_number hm s⟩
  · have hd := (Selects.setpMode ((mask_setp w 4#4 0#4 0#8).mp hrow)).decode_eq
    refine ⟨fun hle => ?_, fun hgt => ?_⟩
    · obtain ⟨m, hm⟩ := Mode.exists_number hle
      exact ⟨m, hm, step_of_lifecycle hw hd (exec_setpMode_of_number hm) (fun _ => rfl)⟩
    · exact step_of_lifecycle hw hd (exec_setpMode_of_gt hgt) (fun _ => rfl)

/-! ## Whole numbers and products that are not negative (00_scope.md R11, R14) -/

/-- A whole number of at most 24 bits is exact. -/
theorem F32.ofNat_exact {n : Nat} (h : n < 2 ^ 24) :
    F32.isFinite (F32.ofNat n) = true ∧ F32.units (F32.ofNat n) = n * 2 ^ 149 := by
  obtain ⟨p, hp, hpat⟩ := F32.exists_pattern (u := n * F32.oneUnits) (k := 149) rfl h
    (by rw [F32.oneUnits]; omega)
  have hround : F32.roundMag (n * F32.oneUnits) 1 = p := by
    rw [← hpat, ← Nat.mul_one (F32.patUnits p), F32.roundMag_exact Nat.one_pos hp]
  unfold F32.ofNat
  rw [F32.isFinite_pack_roundMag, F32.units_pack_roundMag, hround, hpat]
  exact ⟨hp, by rw [F32.signed, F32.oneUnits]; push_cast; rfl⟩

theorem F32.sign_ofNat (n : Nat) : F32.sign (F32.ofNat n) = false :=
  F32.sign_pack false (F32.roundMag_lt _ _)

theorem F32.sign_of_units_pos {x : Num32} (h : 0 < F32.units x) : F32.sign x = false := by
  unfold F32.units at h
  split at h
  · omega
  · next hs => simpa using hs

theorem F32.units_of_sign_false {x : Num32} (h : F32.sign x = false) :
    F32.units x = F32.magUnits x := by
  rw [F32.units_eq_signed, h]
  rfl

/-- The zero that is not negative is `+0`. -/
theorem F32.eq_zero_of_sign_false {x : Num32} (hs : F32.sign x = false) (h0 : F32.units x = 0) :
    x = F32.zero := by
  have hmag : F32.patUnits (F32.mag x) = F32.patUnits 0 := by
    rw [F32.units_of_sign_false hs] at h0
    exact_mod_cast h0
  rw [← F32.pack_sign_mag x, hs, F32.patUnits_inj hmag]
  rfl

/-- A product of finite factors that are not negative is not negative, and at most an infinity. -/
theorem F32.mul_of_sign_false {a b : Num32} (ha : F32.isFinite a = true) (hb : F32.isFinite b = true)
    (hsa : F32.sign a = false) (hsb : F32.sign b = false) :
    F32.sign (F32.mul a b) = false ∧ F32.isNaN (F32.mul a b) = false := by
  rw [F32.mul_of_finite ha hb, hsa, hsb, Bool.xor_false]
  refine ⟨F32.sign_pack false (F32.roundMag_lt _ _), ?_⟩
  unfold F32.isNaN
  rw [F32.mag_pack false (F32.roundMag_lt _ _)]
  exact decide_eq_false (Nat.not_lt.mpr (F32.roundMag_le_inf _ _))

/-- A number of magnitude below 1 is finite: every other pattern orders above it. -/
theorem F32.isFinite_of_magUnits_lt_one {x : Num32} (h : F32.magUnits x < 2 ^ 149) :
    F32.isFinite x = true := by
  have hone : F32.patUnits 0x3F800000 = 2 ^ 149 := by decide +kernel
  rw [F32.isFinite_iff]
  by_contra hc
  have : F32.patUnits 0x3F800000 ≤ F32.magUnits x := F32.patUnits_le_iff.mpr (by omega)
  omega

theorem F32.inUnit_iff (x : Num32) :
    F32.inUnit x = true ↔ F32.isFinite x = true ∧ 0 ≤ F32.units x ∧ F32.units x ≤ 2 ^ 149 := by
  unfold F32.inUnit F32.oneUnits
  rw [Bool.and_eq_true, Bool.and_eq_true, decide_eq_true_eq, decide_eq_true_eq, and_assoc]
  norm_num

/-! ## The clip to [0, 1] (46_primitives.md R219) -/

theorem F32.units_zero : F32.units F32.zero = 0 := by decide +kernel

theorem F32.units_one : F32.units F32.one = 2 ^ 149 := by decide +kernel

theorem Prim.clip01_zero (f : Num32 → Num32) : Prim.clip01 f F32.zero = F32.zero := if_pos (by decide)

/-- From 1 on, an overflow to infinity included. -/
theorem Prim.clip01_of_one_le (f : Num32 → Num32) {x : Num32} (hnan : F32.isNaN x = false)
    (h : 2 ^ 149 ≤ F32.units x) : Prim.clip01 f x = F32.one := by
  have hzero : F32.le x F32.zero = false := by
    have := F32.place_le_iff x F32.zero
    rw [F32.units_zero] at this
    unfold F32.le
    simp only [Bool.and_eq_false_iff, decide_eq_false_iff_not]
    exact .inr (by omega)
  have hone : F32.le F32.one x = true := by
    have := (F32.place_le_iff F32.one x).mpr (F32.units_one.trans_le h)
    unfold F32.le
    rw [hnan, F32.isNaN_of_finite (by decide : F32.isFinite F32.one = true)]
    simpa using this
  unfold Prim.clip01
  rw [hzero, hone]
  rfl

/-- Strictly between 0 and 1 the primitive's value is taken where it lies in [0, 1]. -/
theorem Prim.clip01_of_between {f : Num32 → Num32} {x : Num32} (hx : F32.isFinite x = true)
    (h0 : 0 < F32.units x) (h1 : F32.units x < 2 ^ 149) (hf : F32.inUnit (f x) = true) :
    Prim.clip01 f x = f x := by
  have hzero := F32.le_iff hx (by decide : F32.isFinite F32.zero = true)
  have hone := F32.le_iff (by decide : F32.isFinite F32.one = true) hx
  rw [F32.units_zero] at hzero
  rw [F32.units_one] at hone
  unfold Prim.clip01
  rw [if_neg (mt hzero.mp (by omega)), if_neg (mt hone.mp (by omega)), if_pos hf]

/-- The default clip keeps a number in [0, 1]. -/
theorem Rc0.clip01_of_between {x : Num32} (hx : F32.isFinite x = true) (h0 : 0 ≤ F32.units x)
    (h1 : F32.units x ≤ 2 ^ 149) : Rc0.clip01 x = x := by
  have hzero := F32.lt_iff hx (by decide : F32.isFinite F32.zero = true)
  have hone := F32.lt_iff (by decide : F32.isFinite F32.one = true) hx
  rw [F32.units_zero] at hzero
  rw [F32.units_one] at hone
  unfold Rc0.clip01
  rw [if_neg (mt hzero.mp (by omega)), if_neg (mt hone.mp (by omega))]

/-- A conforming clip whose primitive is the default one keeps a number in [0, 1) that is not negative. -/
theorem Prim.clip01_default {x : Num32} (hs : F32.sign x = false) (h1 : F32.units x < 2 ^ 149) :
    Prim.clip01 Rc0.clip01 x = x := by
  have hmag := F32.units_of_sign_false hs
  have hx : F32.isFinite x = true := F32.isFinite_of_magUnits_lt_one (by omega)
  rcases Nat.eq_zero_or_pos (F32.magUnits x) with h0 | h0
  · rw [F32.eq_zero_of_sign_false hs (by omega), Prim.clip01_zero]
  · have hdefault : Rc0.clip01 x = x := Rc0.clip01_of_between hx (by omega) h1.le
    have hunit : F32.inUnit (Rc0.clip01 x) = true := by
      rw [hdefault, F32.inUnit_iff]
      exact ⟨hx, by omega, h1.le⟩
    exact (Prim.clip01_of_between hx (by omega) h1 hunit).trans hdefault

/-! ## The drive value (R194) -/

theorem driveOfValue_conform (c : Cfg) (v : BitVec 16) :
    driveOfValue c.conform v =
      Prim.clip01 c.clip01 (F32.mul (F32.ofNat v.toNat) c.conform.paramScale) := by
  unfold driveOfValue numOfValue
  rw [Cfg.conform_clip01]

/-- `num(value)` is exact. -/
theorem ofNat_value_exact (v : BitVec 16) :
    F32.isFinite (F32.ofNat v.toNat) = true ∧
      F32.units (F32.ofNat v.toNat) = v.toNat * 2 ^ 149 :=
  F32.ofNat_exact (by have := v.isLt; omega)

/-- The product that is clipped has no sign, since `PARAM_SCALE` is positive, and is not a NaN. -/
theorem driveProduct_sign_isNaN (c : Cfg) (v : BitVec 16) :
    F32.sign (F32.mul (F32.ofNat v.toNat) c.conform.paramScale) = false ∧
      F32.isNaN (F32.mul (F32.ofNat v.toNat) c.conform.paramScale) = false := by
  obtain ⟨hfin, hpos⟩ := Prim.positive_spec c.paramScale
  exact F32.mul_of_sign_false (ofNat_value_exact v).1 hfin (F32.sign_ofNat _)
    (F32.sign_of_units_pos hpos)

/-- Value 0 has the product `+0`. -/
theorem driveOfValue_zero (c : Cfg) : driveOfValue c.conform 0#16 = F32.zero := by
  have hzero : F32.ofNat (0#16).toNat = F32.zero := by decide +kernel
  obtain ⟨hs, -⟩ := driveProduct_sign_isNaN c 0#16
  obtain ⟨hfin, -⟩ := Prim.positive_spec c.paramScale
  obtain ⟨-, h0⟩ := F32.units_zero_mul hfin
  rw [driveOfValue_conform]
  rw [hzero] at hs ⊢
  rw [F32.eq_zero_of_sign_false hs h0, Prim.clip01_zero]

/-- Settles O17: the product is not negative, and each clause is a case of the clip applied to it. -/
theorem setpDriveClampsProduct : Obligations.SetpDriveClampsProduct := by
  unfold Obligations.SetpDriveClampsProduct
  refine ⟨fun s v => exec_setpDrive v s, fun s w rest hw hrow => ?step, fun c v => ?value⟩
  case step =>
    have hd := (Selects.setpDrive ((mask_setp w 4#4 0#4 1#8).mp hrow)).decode_eq
    exact step_of_lifecycle hw hd (exec_setpDrive _) (fun t => t.complete_setDrive _)
  case value =>
    obtain ⟨hs, hnan⟩ := driveProduct_sign_isNaN c v
    have hmag := F32.units_of_sign_false hs
    rw [driveOfValue_conform]
    refine ⟨(ofNat_value_exact v).2, Prim.clip01_inUnit _ _, ?_, Prim.clip01_of_one_le _ hnan,
      fun h0 h1 => ?_, fun hc h1 => ?_⟩
    · rintro rfl
      exact driveOfValue_zero c
    · exact Prim.clip01_of_between (F32.isFinite_of_magUnits_lt_one (by omega)) h0 h1
    · rw [hc]
      exact Prim.clip01_default hs h1

end Sys2Proof.Machine
end

section
/-! The default soft clip (46_primitives.md R216). The clamp is exact and puts the signal in [-1, 1], where the
cube and its product with the threshold are finite (`Rc0.isFinite_cubicTerm`); a sign of the signal then
passes through every operation (`F32.neg_mul`, `F32.mul_neg`, `F32.units_add_neg_neg`). -/

namespace Sys2Proof.Machine

/-! ## Order and sign of operands (00_scope.md R11, R14) -/

theorem F32.add_comm {a b : Num32} (ha : F32.isFinite a = true) (hb : F32.isFinite b = true) :
    F32.add a b = F32.add b a := by
  rw [F32.add_of_finite ha hb, F32.add_of_finite hb ha, Int.add_comm, Bool.and_comm]

theorem F32.mul_comm {a b : Num32} (ha : F32.isFinite a = true) (hb : F32.isFinite b = true) :
    F32.mul a b = F32.mul b a := by
  rw [F32.mul_of_finite ha hb, F32.mul_of_finite hb ha, Bool.xor_comm, Nat.mul_comm]

theorem F32.neg_pack (s : Bool) {m : Nat} (h : m < 2 ^ 31) :
    F32.neg (F32.pack s m) = F32.pack (!s) m := by
  rw [← F32.pack_sign_mag (F32.neg (F32.pack s m)), F32.sign_neg, F32.mag_neg, F32.sign_pack s h,
    F32.mag_pack s h]

/-- The sign of a factor is the sign of the product, bit for bit. -/
theorem F32.neg_mul {a b : Num32} (ha : F32.isFinite a = true) (hb : F32.isFinite b = true) :
    F32.mul (F32.neg a) b = F32.neg (F32.mul a b) := by
  rw [F32.mul_of_finite (by rwa [F32.isFinite_neg]) hb, F32.mul_of_finite ha hb,
    F32.neg_pack _ (F32.roundMag_lt _ _), F32.sign_neg, F32.magUnits_neg, Bool.not_xor]

theorem F32.mul_neg {a b : Num32} (ha : F32.isFinite a = true) (hb : F32.isFinite b = true) :
    F32.mul a (F32.neg b) = F32.neg (F32.mul a b) := by
  rw [F32.mul_comm ha (by rwa [F32.isFinite_neg]), F32.neg_mul hb ha, F32.mul_comm hb ha]

/-- A sum changes sign with its operands: in value only, an exact zero sum being `+0` for both. -/
theorem F32.units_add_neg_neg {a b : Num32} (ha : F32.isFinite a = true)
    (hb : F32.isFinite b = true) :
    F32.units (F32.add (F32.neg a) (F32.neg b)) = -F32.units (F32.add a b) := by
  have hsum : F32.units (F32.neg a) + F32.units (F32.neg b) = -(F32.units a + F32.units b) := by
    rw [F32.units_neg, F32.units_neg]
    omega
  rw [F32.add_of_finite ha hb, F32.add_of_finite (by rwa [F32.isFinite_neg]) (by rwa [F32.isFinite_neg]),
    hsum, Int.natAbs_neg, F32.units_pack_roundMag, F32.units_pack_roundMag]
  generalize F32.units a + F32.units b = z
  by_cases h0 : z = 0
  · subst h0
    rw [Int.natAbs_zero, show F32.patUnits (F32.roundMag 0 1) = 0 by decide]
    simp [F32.signed]
  · have hflip : decide (-z < 0) = !decide (z < 0) := by
      rw [← decide_not]
      exact decide_eq_decide.mpr (by omega)
    rw [if_neg h0, if_neg (by omega), hflip, F32.signed_not]

/-- Factors in [-1, 1] have their product there. -/
theorem F32.inSignedUnit_mul {a b : Num32} (ha : F32.inSignedUnit a = true)
    (hb : F32.inSignedUnit b = true) : F32.inSignedUnit (F32.mul a b) = true := by
  obtain ⟨haf, ha1⟩ := (F32.inSignedUnit_iff a).mp ha
  obtain ⟨hfin, hle⟩ := F32.magUnits_mul_inSignedUnit_le haf hb
  exact (F32.inSignedUnit_iff _).mpr ⟨hfin, hle.trans ha1⟩

/-- Subtracting a zero keeps the value. -/
theorem F32.units_sub_zero {a z : Num32} (ha : F32.isFinite a = true) (hz : F32.isFinite z = true)
    (hz0 : F32.units z = 0) : F32.units (F32.sub a z) = F32.units a := by
  have hnz : F32.isFinite (F32.neg z) = true := by rwa [F32.isFinite_neg]
  have hnz0 : F32.units (F32.neg z) = 0 := by rw [F32.units_neg, hz0, Int.neg_zero]
  obtain ⟨-, hunits⟩ := F32.units_zero_add hnz hnz0 ha
  rwa [F32.sub, F32.add_comm ha hnz]

/-! ## The clamp to [-1, 1] -/

theorem Rc0.clampSigned_of_one_lt {x : Num32} (hx : F32.isFinite x = true)
    (h : 2 ^ 149 < F32.units x) : Rc0.clampSigned x = F32.one := by
  have hhi := F32.lt_iff (by decide : F32.isFinite F32.one = true) hx
  rw [F32.units_one] at hhi
  exact if_pos (hhi.mpr h)

theorem Rc0.clampSigned_of_lt_neg_one {x : Num32} (hx : F32.isFinite x = true)
    (h : F32.units x < -(2 ^ 149)) : Rc0.clampSigned x = F32.neg F32.one := by
  have hhi := F32.lt_iff (by decide : F32.isFinite F32.one = true) hx
  have hlo := F32.lt_iff hx (by decide : F32.isFinite (F32.neg F32.one) = true)
  rw [F32.units_one] at hhi
  rw [F32.units_neg, F32.units_one] at hlo
  unfold Rc0.clampSigned
  rw [if_neg (mt hhi.mp (by omega)), if_pos (hlo.mpr h)]

theorem Rc0.clampSigned_of_between {x : Num32} (hx : F32.isFinite x = true)
    (hlo : -(2 ^ 149) ≤ F32.units x) (hhi : F32.units x ≤ 2 ^ 149) : Rc0.clampSigned x = x := by
  have habove := F32.lt_iff (by decide : F32.isFinite F32.one = true) hx
  have hbelow := F32.lt_iff hx (by decide : F32.isFinite (F32.neg F32.one) = true)
  rw [F32.units_one] at habove
  rw [F32.units_neg, F32.units_one] at hbelow
  unfold Rc0.clampSigned
  rw [if_neg (mt habove.mp (by omega)), if_neg (mt hbelow.mp (by omega))]

/-- Above 1, below -1, or between. -/
theorem F32.units_cases (x : Num32) :
    2 ^ 149 < F32.units x ∨ F32.units x < -(2 ^ 149) ∨
      (-(2 ^ 149) ≤ F32.units x ∧ F32.units x ≤ 2 ^ 149) := by
  omega

/-- The clamp is finite and exact. -/
theorem Rc0.clampSigned_exact {x : Num32} (hx : F32.isFinite x = true) :
    F32.isFinite (Rc0.clampSigned x) = true ∧
    F32.units (Rc0.clampSigned x) = max (-(2 ^ 149)) (min (2 ^ 149) (F32.units x)) := by
  obtain h | h | ⟨hlo, hhi⟩ := F32.units_cases x
  · rw [Rc0.clampSigned_of_one_lt hx h, F32.units_one]
    exact ⟨by decide, by omega⟩
  · rw [Rc0.clampSigned_of_lt_neg_one hx h, F32.units_neg, F32.units_one]
    exact ⟨by decide, by omega⟩
  · rw [Rc0.clampSigned_of_between hx hlo hhi]
    exact ⟨hx, by omega⟩

theorem Rc0.clampSigned_inSignedUnit {x : Num32} (hx : F32.isFinite x = true) :
    F32.inSignedUnit (Rc0.clampSigned x) = true := by
  obtain ⟨hfin, hunits⟩ := Rc0.clampSigned_exact hx
  have habs := F32.natAbs_units (Rc0.clampSigned x)
  exact (F32.inSignedUnit_iff _).mpr ⟨hfin, by rw [F32.oneUnits]; omega⟩

/-- The clamp is odd, bit for bit. -/
theorem Rc0.clampSigned_neg {x : Num32} (hx : F32.isFinite x = true) :
    Rc0.clampSigned (F32.neg x) = F32.neg (Rc0.clampSigned x) := by
  have hnx : F32.isFinite (F32.neg x) = true := by rwa [F32.isFinite_neg]
  have hunits := F32.units_neg x
  obtain h | h | ⟨hlo, hhi⟩ := F32.units_cases x
  · rw [Rc0.clampSigned_of_one_lt hx h, Rc0.clampSigned_of_lt_neg_one hnx (by omega)]
  · rw [Rc0.clampSigned_of_lt_neg_one hx h, Rc0.clampSigned_of_one_lt hnx (by omega), F32.neg_neg]
  · rw [Rc0.clampSigned_of_between hx hlo hhi,
      Rc0.clampSigned_of_between hnx (by omega) (by omega)]

/-! ## The cubic term -/

/-- What the default soft clip takes from the clamped signal `x` at threshold `t`: `t * ((x * x) * x)`. -/
def Rc0.cubicTerm (t x : Num32) : Num32 := F32.mul t (F32.mul (F32.mul x x) x)

theorem Rc0.softClip_eq (t s : Num32) :
    Rc0.softClip t s =
      F32.sub (Rc0.clampSigned s) (Rc0.cubicTerm t (Rc0.clampSigned s)) := rfl

theorem F32.inSignedUnit_cube {x : Num32} (hx : F32.inSignedUnit x = true) :
    F32.inSignedUnit (F32.mul (F32.mul x x) x) = true :=
  F32.inSignedUnit_mul (F32.inSignedUnit_mul hx hx) hx

theorem Rc0.isFinite_cubicTerm {t x : Num32} (ht : F32.isFinite t = true)
    (hx : F32.inSignedUnit x = true) : F32.isFinite (Rc0.cubicTerm t x) = true :=
  (F32.magUnits_mul_inSignedUnit_le ht (F32.inSignedUnit_cube hx)).1

/-- At threshold 0 the term is a zero. -/
theorem Rc0.units_cubicTerm_zeroThreshold {x : Num32} (hx : F32.inSignedUnit x = true) :
    F32.units (Rc0.cubicTerm F32.zero x) = 0 := by
  obtain ⟨hcube, -⟩ := (F32.inSignedUnit_iff _).mp (F32.inSignedUnit_cube hx)
  obtain ⟨-, h0⟩ := F32.units_zero_mul hcube
  exact h0

/-- At signal 0 the term is a zero. -/
theorem Rc0.units_cubicTerm_zeroSignal {t : Num32} (ht : F32.isFinite t = true) :
    F32.units (Rc0.cubicTerm t F32.zero) = 0 := by
  have hcube : F32.mul (F32.mul F32.zero F32.zero) F32.zero = F32.zero := by decide +kernel
  obtain ⟨-, h0⟩ := F32.units_zero_mul ht
  rw [Rc0.cubicTerm, hcube, F32.mul_comm ht (by decide), h0]

/-- At signal 1 the term is the threshold, bit for bit. -/
theorem Rc0.cubicTerm_one {t : Num32} (ht : F32.isFinite t = true) :
    Rc0.cubicTerm t F32.one = t := by
  have hone : F32.isFinite F32.one = true := by decide
  rw [Rc0.cubicTerm, F32.one_mul hone, F32.one_mul hone, F32.mul_comm ht hone, F32.one_mul ht]

/-- The term is odd in the signal, bit for bit: the square drops the sign, the third factor brings it back. -/
theorem Rc0.cubicTerm_neg {t x : Num32} (ht : F32.isFinite t = true)
    (hx : F32.inSignedUnit x = true) :
    Rc0.cubicTerm t (F32.neg x) = F32.neg (Rc0.cubicTerm t x) := by
  obtain ⟨hxf, -⟩ := (F32.inSignedUnit_iff x).mp hx
  have hnx : F32.isFinite (F32.neg x) = true := by rwa [F32.isFinite_neg]
  obtain ⟨hsq, -⟩ := (F32.inSignedUnit_iff _).mp (F32.inSignedUnit_mul hx hx)
  obtain ⟨hcube, -⟩ := (F32.inSignedUnit_iff _).mp (F32.inSignedUnit_cube hx)
  have hsquare : F32.mul (F32.neg x) (F32.neg x) = F32.mul x x := by
    rw [F32.neg_mul hxf hnx, F32.mul_neg hxf hxf, F32.neg_neg]
  unfold Rc0.cubicTerm
  rw [hsquare, F32.mul_neg hsq hxf, F32.mul_neg ht hcube]

/-! ## The default soft clip -/

theorem Rc0.units_softClip_zeroThreshold {x : Num32} (hx : F32.isFinite x = true) :
    F32.units (Rc0.softClip F32.zero x) = max (-(2 ^ 149)) (min (2 ^ 149) (F32.units x)) := by
  obtain ⟨hfin, hunits⟩ := Rc0.clampSigned_exact hx
  have hunit := Rc0.clampSigned_inSignedUnit hx
  rw [Rc0.softClip_eq, F32.units_sub_zero hfin (Rc0.isFinite_cubicTerm (by decide) hunit)
    (Rc0.units_cubicTerm_zeroThreshold hunit), hunits]

theorem Rc0.units_softClip_zeroSignal {t : Num32} (ht : F32.isFinite t = true) :
    F32.units (Rc0.softClip t F32.zero) = 0 := by
  have hclamp : Rc0.clampSigned F32.zero = F32.zero := by decide
  rw [Rc0.softClip_eq, hclamp, F32.units_sub_zero (by decide)
    (Rc0.isFinite_cubicTerm ht (by decide)) (Rc0.units_cubicTerm_zeroSignal ht), F32.units_zero]

theorem Rc0.softClip_one {t : Num32} (ht : F32.isFinite t = true) :
    Rc0.softClip t F32.one = F32.sub F32.one t := by
  have hclamp : Rc0.clampSigned F32.one = F32.one := by decide
  rw [Rc0.softClip_eq, hclamp, Rc0.cubicTerm_one ht]

theorem Rc0.units_softClip_neg {t x : Num32} (ht : F32.isFinite t = true)
    (hx : F32.isFinite x = true) :
    F32.units (Rc0.softClip t (F32.neg x)) = -F32.units (Rc0.softClip t x) := by
  obtain ⟨hfin, -⟩ := Rc0.clampSigned_exact hx
  have hunit := Rc0.clampSigned_inSignedUnit hx
  have hterm := Rc0.isFinite_cubicTerm ht hunit
  rw [Rc0.softClip_eq, Rc0.softClip_eq, Rc0.clampSigned_neg hx, Rc0.cubicTerm_neg ht hunit]
  exact F32.units_add_neg_neg hfin (by rwa [F32.isFinite_neg])

/-- Settles O48: the clamp is exact and odd, and the cubic term is a zero at threshold or signal 0, the
threshold at signal 1, and odd. -/
theorem defaultSoftClipShape : Obligations.DefaultSoftClipShape := by
  unfold Obligations.DefaultSoftClipShape
  exact ⟨fun _ hx => Rc0.units_softClip_zeroThreshold hx,
    fun _ ht => ⟨Rc0.units_softClip_zeroSignal ht, Rc0.softClip_one ht⟩,
    fun _ _ ht hx => Rc0.units_softClip_neg ht hx⟩

end Sys2Proof.Machine
end

section
/-! The exceptions family (60_exceptions.md): a step is total and an idle one keeps all state; `SYNTH` has no
error path; a value out of range saturates in the output conversion and is clipped from above in the resolver. -/

namespace Sys2Proof.Machine

/-! ## No fault and no refusal (R247), and the idle step (R255) -/

/-- Settles O8: a step with no transfer is idle. -/
theorem idleStepKeepsState : Obligations.IdleStepKeepsState := by
  unfold Obligations.IdleStepKeepsState
  exact fun s h => step_of_no_transfer (s.transfer_none.mpr h.symm)

/-- Settles O9, by the three kinds of step: idle, an operation (each of which answers), a reserved word. -/
theorem stepIsTotal : Obligations.StepIsTotal := by
  unfold Obligations.StepIsTotal
  intro s
  cases ht : s.transfer with
  | none => exact ⟨s, step_of_no_transfer ht⟩
  | some wt =>
    obtain ⟨w, t⟩ := wt
    cases hd : decode w with
    | operation i =>
      obtain ⟨u, -, hx, -⟩ := exec_appends hd t
      exact ⟨_, step_of_operation ht hd hx⟩
    | reserved r => exact ⟨_, step_of_reserved ht hd⟩

/-- Settles O22: the frame loop emits one word for each frame. -/
theorem synthEmitsFrameCount : Obligations.SynthEmitsFrameCount := by
  unfold Obligations.SynthEmitsFrameCount
  intro s note mod frames
  obtain ⟨beats, hsmp, hlen⟩ := synth_smp Config.cfg note mod frames s
  exact ⟨_, beats, exec_synth note mod frames s, hsmp, hlen⟩

/-! ## The output conversion (R241; 44_drive_output.md R173, R177) -/

/-- The control update does not write the drive amount, so the frames use that of the state the operation
starts in. -/
theorem synth_smp_getElem? (c : Cfg) (note mod : BitVec 8) {frames : BitVec 12} (s : State) {k : Nat}
    (hk : k < frames.toNat) :
    (synth c note mod frames s).smp[s.smp.length + k]? =
      some { data := conv c (drive c s.driveAmount (mixAt c (controlUpdate c note mod s) k))
             last := decide (k + 1 = frames.toNat) } := by
  obtain ⟨-, hdrive, -⟩ := controlUpdate_frame c note mod s
  rw [synth_smp_eq, List.getElem?_append_right (Nat.le_add_right _ _), Nat.add_sub_cancel_left]
  simp [frameBeats, hk, hdrive, conv]

theorem F32.magUnits_of_units_zero {x : Num32} (h : F32.units x = 0) : F32.magUnits x = 0 := by
  rw [← F32.natAbs_units, h, Int.natAbs_zero]

/-- Settles O41: the word is the default conversion of the driven mix, and a zero has no magnitude. -/
theorem conversionSaturates : Obligations.ConversionSaturates := by
  unfold Obligations.ConversionSaturates
  constructor
  · intro c s note mod frames k hc hk x hx
    obtain ⟨hdefault, -⟩ := defaultToFixedTruncatesAndSaturates
    obtain ⟨-, habove, hbelow, hsmall, -⟩ := hdefault x hx
    have hconv : conv c x = Rc0.toFixed x := congrFun hc x
    refine ⟨_, synth_smp_getElem? c note mod s hk, fun h => hconv.trans (habove h),
      fun h => hconv.trans (hbelow h), fun h => hconv.trans (hsmall ?_)⟩
    rw [F32.magUnits_of_units_zero h]
    exact Nat.two_pow_pos 118
  · exact fun c x hx h0 => conv_conform_zero c hx (F32.magUnits_of_units_zero h0)

/-! ## The frequency clip (R241; 42_resolver.md R133, R137) -/

/-- A value from the maximum on is replaced by it (R137 d). -/
theorem Prim.clipMax_of_le (f : Num32 → Num32 → Num32) {v m : Num32} (hv : F32.isFinite v = true)
    (hm : F32.isFinite m = true) (h : F32.units m ≤ F32.units v) : Prim.clipMax f v m = m := by
  obtain ⟨-, hclip⟩ | ⟨hlt, -⟩ | ⟨hlt, -⟩ := Prim.clipMax_cases f hv hm
  · exact hclip
  all_goals exact absurd h (Int.not_le.mpr hlt)

/-- There is no lower bound (R137 c). -/
theorem Prim.clipMax_of_neg (f : Num32 → Num32 → Num32) {v m : Num32} (hv : F32.isFinite v = true)
    (hm : F32.isFinite m = true) (h : F32.units v < F32.units m) (hneg : F32.units v < 0) :
    Prim.clipMax f v m = v := by
  obtain ⟨hle, -⟩ | ⟨-, -, hclip⟩ | ⟨-, hnonneg, -⟩ := Prim.clipMax_cases f hv hm
  · exact absurd h (Int.not_lt.mpr hle)
  · exact hclip
  · exact absurd hneg (Int.not_lt.mpr hnonneg)

/-- With the default primitive a value from 0 up to the maximum is kept as well (46_primitives.md R218). -/
theorem Prim.clipMax_default {v m : Num32} (hv : F32.isFinite v = true) (hm : F32.isFinite m = true)
    (h : F32.units v < F32.units m) : Prim.clipMax Rc0.clipMax v m = v := by
  have hdefault : Rc0.clipMax v m = v := if_neg (mt (F32.le_iff hm hv).mp (Int.not_le.mpr h))
  obtain ⟨hle, -⟩ | ⟨-, -, hclip⟩ | ⟨-, -, hclip⟩ := Prim.clipMax_cases Rc0.clipMax hv hm
  · exact absurd h (Int.not_lt.mpr hle)
  · exact hclip
  · rw [hclip, hdefault, ite_self]

/-- Settles O49: the increment of an active slot is that of the clipped frequency, and each clause is a case
of the clip. -/
theorem frequencyIsClippedFromAboveOnly : Obligations.FrequencyIsClippedFromAboveOnly := by
  unfold Obligations.FrequencyIsClippedFromAboveOnly
  intro c s note mod frames i hactive v f dither hf hm
  have hinc : v.inc = F32.add (F32.mul (Prim.clipMax c.clipMax f c.fMax) c.srRecip) dither :=
    (synth_inc_of_active c.conform note mod frames s hactive).trans
      (resolvedInc_formula c.conform mod s.detuneAmount i v.note _)
  refine ⟨fun habove => ?_, fun hbelow hneg => ?_, fun hbelow hc => ?_⟩
  · rw [hinc, Prim.clipMax_of_le c.clipMax hf hm habove]
  · rw [hinc, Prim.clipMax_of_neg c.clipMax hf hm hbelow hneg]
  · rw [hinc, hc, Prim.clipMax_default hf hm hbelow]

end Sys2Proof.Machine
end
